-- ==== Sys2Proof/Word.lean ====
section
/-! DEFINITION. The word types of the block (00_scope.md R9): bytes, 16-bit words, register indices. -/

namespace Sys2Proof

/-- An 8-bit value: a general register, a timer, a byte of memory, a pixel (R9). -/
abbrev Byte := BitVec 8

/-- A 16-bit value: an opcode, `pc`, `I`, a return address (R9). -/
abbrev Word := BitVec 16

/-- The index of one of the sixteen registers V0 to VF, keys or stack slots (10_state.md R101). -/
abbrev Reg := Fin 16

/-- VF, which doubles as the flag register (10_state.md R103). -/
abbrev vf : Reg := 15

/-- The 16-bit value of two bytes, the first the high one: `{hi, lo}` of 00_scope.md R13. -/
def beWord (hi lo : Byte) : Word := hi ++ lo

end Sys2Proof
end

