-- ==== Sys2Proof/Syntax.lean ====
section
/-! DEFINITION. The 34 instructions of 30_encoding.md R310, one constructor per row of spec/opcode_table.json. -/

namespace Sys2Proof

/-- An instruction. A register field is a `Reg`, `kk` a byte, `nnn` 12 bits and `n` a row count 0 to 15, each exactly
the bits 30_encoding.md R301 gives it. A field the instruction ignores is not kept (R304). -/
inductive Instr where
  /-- 00E0 CLS (R805). -/
  | cls
  /-- 00EE RET (R400). -/
  | ret
  /-- 1nnn JP nnn (R410). -/
  | jp (nnn : BitVec 12)
  /-- 2nnn CALL nnn (R420). -/
  | call (nnn : BitVec 12)
  /-- 3xkk SE Vx, kk (R440). -/
  | seByte (x : Reg) (kk : Byte)
  /-- 4xkk SNE Vx, kk (R445). -/
  | sneByte (x : Reg) (kk : Byte)
  /-- 5xy0 SE Vx, Vy (R450). -/
  | seReg (x y : Reg)
  /-- 6xkk LD Vx, kk (R500). -/
  | ldByte (x : Reg) (kk : Byte)
  /-- 7xkk ADD Vx, kk (R505). -/
  | addByte (x : Reg) (kk : Byte)
  /-- 8xy0 LD Vx, Vy (R510). -/
  | ldReg (x y : Reg)
  /-- 8xy1 OR Vx, Vy (R515). -/
  | orReg (x y : Reg)
  /-- 8xy2 AND Vx, Vy (R520). -/
  | andReg (x y : Reg)
  /-- 8xy3 XOR Vx, Vy (R525). -/
  | xorReg (x y : Reg)
  /-- 8xy4 ADD Vx, Vy (R530). -/
  | addReg (x y : Reg)
  /-- 8xy5 SUB Vx, Vy (R535). -/
  | sub (x y : Reg)
  /-- 8xy6 SHR Vx (R540); the y field is ignored. -/
  | shr (x : Reg)
  /-- 8xy7 SUBN Vx, Vy (R545). -/
  | subn (x y : Reg)
  /-- 8xyE SHL Vx (R550); the y field is ignored. -/
  | shl (x : Reg)
  /-- 9xy0 SNE Vx, Vy (R455). -/
  | sneReg (x y : Reg)
  /-- Annn LD I, nnn (R610). -/
  | ldI (nnn : BitVec 12)
  /-- Bnnn JP V0, nnn (R470). -/
  | jpV0 (nnn : BitVec 12)
  /-- Cxkk RND Vx, kk (R560). -/
  | rnd (x : Reg) (kk : Byte)
  /-- Dxyn DRW Vx, Vy, n (R820). -/
  | drw (x y : Reg) (n : Fin 16)
  /-- Ex9E SKP Vx (R740). -/
  | skp (x : Reg)
  /-- ExA1 SKNP Vx (R745). -/
  | sknp (x : Reg)
  /-- Fx07 LD Vx, DT (R710). -/
  | ldFromDt (x : Reg)
  /-- Fx0A LD Vx, K (R750). -/
  | ldKey (x : Reg)
  /-- Fx15 LD DT, Vx (R715). -/
  | ldDt (x : Reg)
  /-- Fx18 LD ST, Vx (R720). -/
  | ldSt (x : Reg)
  /-- Fx1E ADD I, Vx (R620). -/
  | addI (x : Reg)
  /-- Fx29 LD F, Vx (R630). -/
  | ldFont (x : Reg)
  /-- Fx33 LD B, Vx (R640). -/
  | ldBcd (x : Reg)
  /-- Fx55 LD [I], Vx (R650). -/
  | store (x : Reg)
  /-- Fx65 LD Vx, [I] (R660). -/
  | load (x : Reg)
  deriving DecidableEq, Repr

end Sys2Proof
end

