-- ==== Sys2Proof/WellFormed.lean ====
section
/-! DEFINITION. Well-formedness of what comes from outside: an instruction as syntax, and the host's ROM buffer. -/

namespace Sys2Proof

/-- No constructor carries a side condition: the type of every operand admits exactly the values its field of
30_encoding.md R301 has, so every term of `Instr` is an instruction of the table and there is no ill-formed term. -/
def Instr.wellFormed (i : Instr) : Bool :=
  match i with
  | .cls | .ret => true
  | .jp _ | .call _ | .ldI _ | .jpV0 _ => true
  | .seByte _ _ | .sneByte _ _ | .ldByte _ _ | .addByte _ _ | .rnd _ _ => true
  | .seReg _ _ | .ldReg _ _ | .orReg _ _ | .andReg _ _ | .xorReg _ _ => true
  | .addReg _ _ | .sub _ _ | .subn _ _ | .sneReg _ _ => true
  | .shr _ | .shl _ => true
  | .drw _ _ _ => true
  | .skp _ | .sknp _ | .ldFromDt _ | .ldKey _ | .ldDt _ | .ldSt _ => true
  | .addI _ | .ldFont _ | .ldBcd _ | .store _ | .load _ => true

/-- A ROM buffer has 1 to 3584 bytes, 3584 being 4096 - 0x200 (20_memory.md R212, 70_reset_and_hazards.md R1011). -/
def romWellFormed (rom : List Byte) : Bool := 1 ≤ rom.length && rom.length ≤ 3584

end Sys2Proof
end

