-- ==== Sys2Proof/Decode.lean ====
section
/-! DEFINITION. Instruction fields, the opcode map, the decoder and the encoder (30_encoding.md R300 to R320). -/

namespace Sys2Proof

/-! ### Fields of an opcode (R301) -/

/-- Nibble 1, the major opcode: opc[15:12]. -/
def fieldOp (opc : Word) : BitVec 4 := opc.extractLsb' 12 4

/-- The x field: opc[11:8]. -/
def fieldX (opc : Word) : Reg := (opc.extractLsb' 8 4).toFin

/-- The y field: opc[7:4]. -/
def fieldY (opc : Word) : Reg := (opc.extractLsb' 4 4).toFin

/-- The n field: opc[3:0]. -/
def fieldN (opc : Word) : Fin 16 := (opc.extractLsb' 0 4).toFin

/-- The kk field: opc[7:0]. -/
def fieldKk (opc : Word) : Byte := opc.extractLsb' 0 8

/-- The nnn field: opc[11:0]. -/
def fieldNnn (opc : Word) : BitVec 12 := opc.extractLsb' 0 12

/-! ### The opcode map (R310) -/

/-- One row of the opcode map: the mnemonic as spec/opcode_table.json spells it, and R302's match and mask. -/
structure OpRow where
  mnemonic : String
  pat : Word
  mask : Word
  deriving DecidableEq, Repr

/-- R302: opc matches a row when `opc & mask = match`. -/
def OpRow.matchesOpc (row : OpRow) (opc : Word) : Bool := opc &&& row.mask == row.pat

/-- Rows 1 to 9 of R310. -/
def opcodeMapA : List OpRow := [
  ⟨"CLS", 0x00E0, 0xFFFF⟩, ⟨"RET", 0x00EE, 0xFFFF⟩, ⟨"JP_nnn", 0x1000, 0xF000⟩,
  ⟨"CALL_nnn", 0x2000, 0xF000⟩, ⟨"SE_Vx__kk", 0x3000, 0xF000⟩, ⟨"SNE_Vx__kk", 0x4000, 0xF000⟩,
  ⟨"SE_Vx__Vy", 0x5000, 0xF00F⟩, ⟨"LD_Vx__kk", 0x6000, 0xF000⟩, ⟨"ADD_Vx__kk", 0x7000, 0xF000⟩]

/-- Rows 10 to 19 of R310. -/
def opcodeMapB : List OpRow := [
  ⟨"LD_Vx__Vy", 0x8000, 0xF00F⟩, ⟨"OR_Vx__Vy", 0x8001, 0xF00F⟩, ⟨"AND_Vx__Vy", 0x8002, 0xF00F⟩,
  ⟨"XOR_Vx__Vy", 0x8003, 0xF00F⟩, ⟨"ADD_Vx__Vy", 0x8004, 0xF00F⟩, ⟨"SUB_Vx__Vy", 0x8005, 0xF00F⟩,
  ⟨"SHR_Vx", 0x8006, 0xF00F⟩, ⟨"SUBN_Vx__Vy", 0x8007, 0xF00F⟩, ⟨"SHL_Vx", 0x800E, 0xF00F⟩,
  ⟨"SNE_Vx__Vy", 0x9000, 0xF00F⟩]

/-- Rows 20 to 27 of R310. -/
def opcodeMapC : List OpRow := [
  ⟨"LD_I__nnn", 0xA000, 0xF000⟩, ⟨"JP_V0__nnn", 0xB000, 0xF000⟩, ⟨"RND_Vx__kk", 0xC000, 0xF000⟩,
  ⟨"DRW_Vx__Vy__n", 0xD000, 0xF000⟩, ⟨"SKP_Vx", 0xE09E, 0xF0FF⟩, ⟨"SKNP_Vx", 0xE0A1, 0xF0FF⟩,
  ⟨"LD_Vx__DT", 0xF007, 0xF0FF⟩, ⟨"LD_Vx__K", 0xF00A, 0xF0FF⟩]

/-- Rows 28 to 34 of R310. -/
def opcodeMapD : List OpRow := [
  ⟨"LD_DT__Vx", 0xF015, 0xF0FF⟩, ⟨"LD_ST__Vx", 0xF018, 0xF0FF⟩, ⟨"ADD_I__Vx", 0xF01E, 0xF0FF⟩,
  ⟨"LD_F__Vx", 0xF029, 0xF0FF⟩, ⟨"LD_B__Vx", 0xF033, 0xF0FF⟩, ⟨"LD__I___Vx", 0xF055, 0xF0FF⟩,
  ⟨"LD_Vx___I", 0xF065, 0xF0FF⟩]

/-- The 34 rows of R310, in its order. -/
def opcodeMap : List OpRow := opcodeMapA ++ opcodeMapB ++ opcodeMapC ++ opcodeMapD

/-- The row of an instruction, by its number in R310 counted from 0. -/
def rowOf (i : Instr) : Option OpRow :=
  match i with
  | .cls => opcodeMap[0]?
  | .ret => opcodeMap[1]?
  | .jp _ => opcodeMap[2]?
  | .call _ => opcodeMap[3]?
  | .seByte _ _ => opcodeMap[4]?
  | .sneByte _ _ => opcodeMap[5]?
  | .seReg _ _ => opcodeMap[6]?
  | .ldByte _ _ => opcodeMap[7]?
  | .addByte _ _ => opcodeMap[8]?
  | .ldReg _ _ => opcodeMap[9]?
  | .orReg _ _ => opcodeMap[10]?
  | .andReg _ _ => opcodeMap[11]?
  | .xorReg _ _ => opcodeMap[12]?
  | .addReg _ _ => opcodeMap[13]?
  | .sub _ _ => opcodeMap[14]?
  | .shr _ => opcodeMap[15]?
  | .subn _ _ => opcodeMap[16]?
  | .shl _ => opcodeMap[17]?
  | .sneReg _ _ => opcodeMap[18]?
  | .ldI _ => opcodeMap[19]?
  | .jpV0 _ => opcodeMap[20]?
  | .rnd _ _ => opcodeMap[21]?
  | .drw _ _ _ => opcodeMap[22]?
  | .skp _ => opcodeMap[23]?
  | .sknp _ => opcodeMap[24]?
  | .ldFromDt _ => opcodeMap[25]?
  | .ldKey _ => opcodeMap[26]?
  | .ldDt _ => opcodeMap[27]?
  | .ldSt _ => opcodeMap[28]?
  | .addI _ => opcodeMap[29]?
  | .ldFont _ => opcodeMap[30]?
  | .ldBcd _ => opcodeMap[31]?
  | .store _ => opcodeMap[32]?
  | .load _ => opcodeMap[33]?

/-! ### The decoder (R311) -/

/-- The 8xyN rows of R311, by N. -/
def decode8 (x y : Reg) (n : Nat) : Option Instr :=
  match n with
  | 0x0 => some (.ldReg x y)
  | 0x1 => some (.orReg x y)
  | 0x2 => some (.andReg x y)
  | 0x3 => some (.xorReg x y)
  | 0x4 => some (.addReg x y)
  | 0x5 => some (.sub x y)
  | 0x6 => some (.shr x)
  | 0x7 => some (.subn x y)
  | 0xE => some (.shl x)
  | _ => none

/-- The ExKK rows of R311, by KK. -/
def decodeE (x : Reg) (kk : Nat) : Option Instr :=
  match kk with
  | 0x9E => some (.skp x)
  | 0xA1 => some (.sknp x)
  | _ => none

/-- The FxKK rows of R311, by KK. -/
def decodeF (x : Reg) (kk : Nat) : Option Instr :=
  match kk with
  | 0x07 => some (.ldFromDt x)
  | 0x0A => some (.ldKey x)
  | 0x15 => some (.ldDt x)
  | 0x18 => some (.ldSt x)
  | 0x1E => some (.addI x)
  | 0x29 => some (.ldFont x)
  | 0x33 => some (.ldBcd x)
  | 0x55 => some (.store x)
  | 0x65 => some (.load x)
  | _ => none

/-- R311's decode, total on every opcode; `none` is the spec's `Illegal`. -/
def decode (opc : Word) : Option Instr :=
  let x := fieldX opc
  let y := fieldY opc
  let n := fieldN opc
  let kk := fieldKk opc
  let nnn := fieldNnn opc
  match (fieldOp opc).toNat with
  | 0x0 => if opc = 0x00E0 then some .cls else if opc = 0x00EE then some .ret else none
  | 0x1 => some (.jp nnn)
  | 0x2 => some (.call nnn)
  | 0x3 => some (.seByte x kk)
  | 0x4 => some (.sneByte x kk)
  | 0x5 => if n = 0 then some (.seReg x y) else none
  | 0x6 => some (.ldByte x kk)
  | 0x7 => some (.addByte x kk)
  | 0x8 => decode8 x y n.val
  | 0x9 => if n = 0 then some (.sneReg x y) else none
  | 0xA => some (.ldI nnn)
  | 0xB => some (.jpV0 nnn)
  | 0xC => some (.rnd x kk)
  | 0xD => some (.drw x y n)
  | 0xE => decodeE x kk.toNat
  | 0xF => decodeF x kk.toNat
  | _ => none

/-- Why a byte string holds no instruction at its start. -/
inductive DecodeReject where
  /-- Fewer than the two bytes every instruction has (R300). -/
  | truncated (have_ : Nat)
  /-- The opcode is in no row of the map (R320). -/
  | illegalOpcode (opc : Word)
  deriving DecidableEq, Repr

/-- The instruction at the start of a byte string, high byte first (20_memory.md R235), with the bytes after it; total,
rejecting by name. -/
def decodeBytes (bytes : List Byte) : Except DecodeReject (Instr × List Byte) :=
  match bytes with
  | hi :: lo :: rest =>
    match decode (beWord hi lo) with
    | some i => .ok (i, rest)
    | none => .error (.illegalOpcode (beWord hi lo))
  | short => .error (.truncated short.length)

/-! ### The encoder -/

/-- Form `op nnn`. -/
def wordNnn (op : BitVec 4) (nnn : BitVec 12) : Word := op ++ nnn

/-- Form `op x kk`. -/
def wordXkk (op : BitVec 4) (x : Reg) (kk : Byte) : Word := op ++ (BitVec.ofFin x : BitVec 4) ++ kk

/-- Form `op x y n`. -/
def wordXyn (op : BitVec 4) (x y n : Fin 16) : Word :=
  op ++ (BitVec.ofFin x : BitVec 4) ++ (BitVec.ofFin y : BitVec 4) ++ (BitVec.ofFin n : BitVec 4)

/-- The opcode of an instruction, from the pattern column of R310. The y field that 8xy6 and 8xyE ignore is written
0 (DESIGN CHOICE, log entry 8). -/
def encode (i : Instr) : Word :=
  match i with
  | .cls => 0x00E0
  | .ret => 0x00EE
  | .jp nnn => wordNnn 0x1 nnn
  | .call nnn => wordNnn 0x2 nnn
  | .seByte x kk => wordXkk 0x3 x kk
  | .sneByte x kk => wordXkk 0x4 x kk
  | .seReg x y => wordXyn 0x5 x y 0
  | .ldByte x kk => wordXkk 0x6 x kk
  | .addByte x kk => wordXkk 0x7 x kk
  | .ldReg x y => wordXyn 0x8 x y 0x0
  | .orReg x y => wordXyn 0x8 x y 0x1
  | .andReg x y => wordXyn 0x8 x y 0x2
  | .xorReg x y => wordXyn 0x8 x y 0x3
  | .addReg x y => wordXyn 0x8 x y 0x4
  | .sub x y => wordXyn 0x8 x y 0x5
  | .shr x => wordXyn 0x8 x 0 0x6
  | .subn x y => wordXyn 0x8 x y 0x7
  | .shl x => wordXyn 0x8 x 0 0xE
  | .sneReg x y => wordXyn 0x9 x y 0
  | .ldI nnn => wordNnn 0xA nnn
  | .jpV0 nnn => wordNnn 0xB nnn
  | .rnd x kk => wordXkk 0xC x kk
  | .drw x y n => wordXyn 0xD x y n
  | .skp x => wordXkk 0xE x 0x9E
  | .sknp x => wordXkk 0xE x 0xA1
  | .ldFromDt x => wordXkk 0xF x 0x07
  | .ldKey x => wordXkk 0xF x 0x0A
  | .ldDt x => wordXkk 0xF x 0x15
  | .ldSt x => wordXkk 0xF x 0x18
  | .addI x => wordXkk 0xF x 0x1E
  | .ldFont x => wordXkk 0xF x 0x29
  | .ldBcd x => wordXkk 0xF x 0x33
  | .store x => wordXkk 0xF x 0x55
  | .load x => wordXkk 0xF x 0x65

/-- The high byte of an opcode, the one at the lower address (R235). -/
def hiByte (opc : Word) : Byte := opc.extractLsb' 8 8

/-- The low byte of an opcode. -/
def loByte (opc : Word) : Byte := opc.extractLsb' 0 8

/-- The two bytes of an instruction in memory order. -/
def encodeBytes (i : Instr) : List Byte := [hiByte (encode i), loByte (encode i)]

/-- The opcode whose bits are `w`, with every bit from `nbits` up 0. Every row of the table has one 16-bit word. -/
def tableOpcode (nbits w : Nat) : Word := BitVec.ofNat 16 (w % 2 ^ nbits)

/-- The instruction the decoder reads from a word numbered as spec/opcode_table.json numbers it, its bytes laid out
high byte first. -/
def decodeTableWord (nbits w : Nat) : Option Instr :=
  match decodeBytes [hiByte (tableOpcode nbits w), loByte (tableOpcode nbits w)] with
  | .ok (i, _) => some i
  | .error _ => none

end Sys2Proof
end

