-- ==== Sys2Proof/Config.lean ====
section
/-! DEFINITION. What is fixed at construction (00_scope.md R10) and the free value of the model: the random byte. -/

namespace Sys2Proof

/-- DRAW_EDGE: what a set sprite bit off the screen does (44_display.md R813). -/
inductive DrawEdge where
  | clip
  | wrap
  | fault
  deriving DecidableEq, Repr

/-- LOW_WRITE: what a write below 0x200 does (20_memory.md R231). -/
inductive LowWrite where
  | fault
  | write
  deriving DecidableEq, Repr

/-- FONT: any 80 bytes, glyph `d` at offsets `5d` to `5d + 4` (R10). -/
abbrev Font := Vector Byte 80

/-- The construction parameters of R10. A run never changes them (70_reset_and_hazards.md R1000). -/
structure Params where
  font : Font
  drawEdge : DrawEdge
  lowWrite : LowWrite
  deriving DecidableEq, Repr

/-- Glyphs 0 to 3 of 20_memory.md R211. -/
def Config.glyphs0 : Vector Byte 20 :=
  #v[0xF0, 0x90, 0x90, 0x90, 0xF0, 0x20, 0x60, 0x20, 0x20, 0x70,
    0xF0, 0x10, 0xF0, 0x80, 0xF0, 0xF0, 0x10, 0xF0, 0x10, 0xF0]

/-- Glyphs 4 to 7 of R211. -/
def Config.glyphs4 : Vector Byte 20 :=
  #v[0x90, 0x90, 0xF0, 0x10, 0x10, 0xF0, 0x80, 0xF0, 0x10, 0xF0,
    0xF0, 0x80, 0xF0, 0x90, 0xF0, 0xF0, 0x10, 0x20, 0x40, 0x40]

/-- Glyphs 8 to B of R211. -/
def Config.glyphs8 : Vector Byte 20 :=
  #v[0xF0, 0x90, 0xF0, 0x90, 0xF0, 0xF0, 0x90, 0xF0, 0x10, 0xF0,
    0xF0, 0x90, 0xF0, 0x90, 0x90, 0xE0, 0x90, 0xE0, 0x90, 0xE0]

/-- Glyphs C to F of R211. -/
def Config.glyphsC : Vector Byte 20 :=
  #v[0xF0, 0x80, 0x80, 0x80, 0xF0, 0xE0, 0x90, 0x90, 0x90, 0xE0,
    0xF0, 0x80, 0xF0, 0x80, 0xF0, 0xF0, 0x80, 0xF0, 0x80, 0x80]

/-- The default FONT, the table of 20_memory.md R211. PRESUMED: the spec itself marks the bytes as general
knowledge (log entry 2). -/
def Config.defaultFont : Font :=
  Config.glyphs0 ++ Config.glyphs4 ++ Config.glyphs8 ++ Config.glyphsC

/-- The defaults of R10. -/
def Config.defaultParams : Params :=
  { font := Config.defaultFont, drawEdge := .clip, lowWrite := .fault }

/-- FREE VALUE: the random byte of the step with this number, when the host's choice is not in the state. Any of
the 256 values, under no law (10_state.md R131, log entry 3). -/
opaque Config.freeRand : Nat → Byte

end Sys2Proof
end

