-- ==== Sys2Proof/Machine/State.lean ====
section
/-! DEFINITION. The state of the block as plain data, the faults and refusals a step can end in, and the reset state
(10_state.md R100, 60_exceptions.md R900 to R905, 70_reset_and_hazards.md R1000, R1001). -/

namespace Sys2Proof.Machine

/-- The fatal faults of 60_exceptions.md R900, each with the record of R902: `pc` is A, the address of the faulting
instruction, and `opc` the opcode fetched there. All are SAFE: the run stops where the spec stops it, with no effect
on the state (R901). -/
inductive Fault where
  /-- Code 1: the fetch would read past the end of memory. Raised by every step (R330). Safe. -/
  | fetchRange (pc : Word)
  /-- Code 2: the opcode is in no row of the opcode map. Raised by every step (R331, R320). Safe. -/
  | illegalOpcode (pc opc : Word)
  /-- Code 3: RET with sp = 0. Raised by 00EE (R400). Safe. -/
  | stackUnderflow (pc opc : Word)
  /-- Code 4: CALL with sp = 16. Raised by 2nnn (R420). Safe. -/
  | stackOverflow (pc opc : Word)
  /-- Code 5: `index.load` of a value above 0xFFF. Raised by Annn and Fx29, by neither on any operand (R601). Safe. -/
  | indexRange (pc opc : Word) (value : Nat)
  /-- Code 6: `keypad.is_pressed` of an index above 15. Raised by Ex9E and ExA1 (R730). Safe. -/
  | keyRange (pc opc : Word) (key : Byte)
  /-- Code 7: an I-based access reaches past 0xFFF. Raised by Dxyn, Fx33, Fx55 and Fx65 (R230). Safe. -/
  | memoryRange (pc opc : Word) (base len : Nat)
  /-- Code 8: a write that starts below 0x200, with LOW_WRITE = `fault`. Raised by Fx33 and Fx55 (R231). Safe. -/
  | lowWrite (pc opc : Word) (base len : Nat)
  /-- Code 9: I + Vx above 0xFFFF. Raised by Fx1E (R602). Safe. -/
  | indexOverflow (pc opc : Word) (value : Nat)
  /-- Code 10: a set sprite bit off the screen, with DRAW_EDGE = `fault`. Raised by Dxyn (R813). Safe. -/
  | drawEdge (pc opc : Word) (x0 y0 : Nat)
  deriving DecidableEq, Repr

/-- Why a step, or a host transaction, is not carried out at all. -/
inductive Refusal where
  /-- The instruction has no meaning in this model. Raised by exec's arms only; no arm of this model is refused. Safe. -/
  | notModelled (mnemonic : String)
  /-- A step in a `faulted` state, with the record that stopped the block: not admitted (60_exceptions.md R904).
  Raised by step. Safe. -/
  | stepNotAdmitted (record : Fault)
  /-- A ROM load after the first load or step: it has no meaning (70_reset_and_hazards.md R1010). Raised by the
  transaction load_rom. Safe. -/
  | loadNotAdmitted
  deriving DecidableEq, Repr

/-- The run status (10_state.md R135). -/
inductive Status where
  | running
  | faulted (record : Fault)
  deriving DecidableEq, Repr

/-- The boot phase (10_state.md R136). -/
inductive Phase where
  | fresh
  | loaded
  | started
  deriving DecidableEq, Repr

/-- A sparse store of bytes: the listed addresses strictly rise, and no listed byte is what an unlisted address
reads as. Both the memory array and the frame buffer are held so. -/
abbrev Cells := List Host.Cell

/-- Everything that persists between steps (10_state.md R100), the construction parameters, and the model's own two
fields for the random byte (R131). -/
structure State where
  /-- The memory array (20_memory.md R200); an unlisted address reads as after construction (R213). -/
  mem : Cells
  /-- V0 to VF (R101). -/
  v : Vector Byte 16
  /-- The program counter (R110). -/
  pc : Word
  /-- The index register I (R115). -/
  index : Word
  /-- The sixteen return-address slots (R117). -/
  stack : Vector Word 16
  /-- The stack pointer, the number of return addresses held, 0 to 16 (R118). -/
  sp : Fin 17
  /-- The delay timer (R120). -/
  dt : Byte
  /-- The sound timer (R121). -/
  st : Byte
  /-- The key levels, true when down (R125). -/
  key : Vector Bool 16
  /-- The frame buffer, pixel (px, py) at py * 64 + px (R126); an unlisted pixel reads 0x00. -/
  fb : Cells
  /-- The run status (R135). -/
  status : Status
  /-- The boot phase (R136). -/
  phase : Phase
  /-- FONT, DRAW_EDGE and LOW_WRITE, fixed at construction (00_scope.md R10; log entry 1). -/
  params : Params
  /-- The random byte of the coming step where the host has said it (R131, R944; log entry 3). -/
  randIn : Option Byte
  /-- The number of the coming step's free random byte (log entry 3). -/
  draws : Nat
  deriving DecidableEq, Repr

/-- How a step ends. -/
abbrev StepResult := Host.Outcome State Fault Refusal

/-- The state right after construction with the given parameters (70_reset_and_hazards.md R1001). -/
def State.construct (p : Params) : State where
  mem := []
  v := Vector.replicate 16 0
  pc := 0x200
  index := 0
  stack := Vector.replicate 16 0
  sp := 0
  dt := 0
  st := 0
  key := Vector.replicate 16 false
  fb := []
  status := .running
  phase := .fresh
  params := p
  randIn := none
  draws := 0

/-- The reset state: construction with the default parameters of 00_scope.md R10. -/
def State.reset : State := State.construct Config.defaultParams

end Sys2Proof.Machine
end

