-- ==== Sys2Proof/Machine/Ops.lean ====
section
/-! DEFINITION. The named operations over the state that the instructions share: the sparse stores, memory, registers,
the fetch, the end of a step, faults, and the host's ROM load and key input. -/

namespace Sys2Proof.Machine

/-! ### Sparse stores in canonical form -/

/-- The byte at an address: the listed one, or what an unlisted address reads as. -/
def Cells.read (unlisted : Nat → Byte) (cells : Cells) (a : Nat) : Byte :=
  match cells with
  | [] => unlisted a
  | (b, v) :: rest => if a = b then v else Cells.read unlisted rest a

/-- Lists a byte at its place in the rising order, in the place of an earlier one. -/
def Cells.insert (cells : Cells) (a : Nat) (v : Byte) : Cells :=
  match cells with
  | [] => [(a, v)]
  | (b, w) :: rest =>
    if a < b then (a, v) :: (b, w) :: rest
    else if a = b then (a, v) :: rest
    else (b, w) :: Cells.insert rest a v

/-- Lists an address no longer. -/
def Cells.erase (cells : Cells) (a : Nat) : Cells := cells.filter (fun c => c.1 != a)

/-- Writes a byte and keeps the canonical form: what an unlisted address reads as is not listed. -/
def Cells.write (unlisted : Nat → Byte) (cells : Cells) (a : Nat) (v : Byte) : Cells :=
  if v = unlisted a then Cells.erase cells a else Cells.insert cells a v

/-- The listed addresses strictly rise. -/
def Cells.rising (cells : Cells) : Bool :=
  match cells with
  | [] => true
  | c :: rest => rest.all (fun d => c.1 < d.1) && Cells.rising rest

/-- The canonical form of a store of `size` bytes. -/
def Cells.wf (unlisted : Nat → Byte) (size : Nat) (cells : Cells) : Bool :=
  Cells.rising cells && cells.all (fun c => c.1 < size && c.2 != unlisted c.1)

/-! ### Memory (20_memory.md) -/

/-- The size of memory, addresses 0x000 to 0xFFF (R200). -/
def memSize : Nat := 4096

/-- What an address nothing has written reads as: the contents at construction, FONT at 0x050 to 0x09F and zero
elsewhere (R210, R213). -/
def Memory.unlisted (font : Font) (a : Nat) : Byte :=
  if h : 0x050 ≤ a ∧ a < 0x0A0 then font[a - 0x050]'(by omega) else 0

/-- The canonical form of the memory array. -/
def Memory.wf (font : Font) (mem : Cells) : Bool := Cells.wf (Memory.unlisted font) memSize mem

/-- `MemRead(a, 1)` (R220). -/
def State.memRead (s : State) (a : Nat) : Byte := Cells.read (Memory.unlisted s.params.font) s.mem a

/-- `MemWrite(a, 1, v)` (R221). -/
def State.memWrite (s : State) (a : Nat) (v : Byte) : State :=
  { s with mem := Cells.write (Memory.unlisted s.params.font) s.mem a v }

/-- Writes bytes at rising addresses from `base`, in order. -/
def State.memWriteAll (s : State) (base : Nat) (bytes : List Byte) : State :=
  match bytes with
  | [] => s
  | b :: rest => (s.memWrite base b).memWriteAll (base + 1) rest

/-! ### Registers (10_state.md) -/

/-- `V[x]` (R101). -/
def State.getV (s : State) (x : Reg) : Byte := s.v[x.val]

/-- `V[x] <- b` (R101); no register is hardwired (R102). -/
def State.setV (s : State) (x : Reg) (b : Byte) : State := { s with v := s.v.set x.val b }

/-- `pc <- target` (R110). -/
def State.setPc (s : State) (target : Word) : State := { s with pc := target }

/-- `I <- value` (R115). -/
def State.setIndex (s : State) (value : Word) : State := { s with index := value }

/-- `DT <- b` (43_timers_keypad.md R700). -/
def State.setDt (s : State) (b : Byte) : State := { s with dt := b }

/-- `ST <- b` (R700). -/
def State.setSt (s : State) (b : Byte) : State := { s with st := b }

/-- Replaces the frame buffer (10_state.md R127). -/
def State.setFb (s : State) (fb : Cells) : State := { s with fb := fb }

/-- The random byte of this step: the one the host has said, or the free one (10_state.md R131, log entry 3). -/
def State.rand (s : State) : Byte :=
  match s.randIn with
  | some r => r
  | none => Config.freeRand s.draws

/-! ### Faults (60_exceptions.md) -/

/-- `raise Fault(...)`: the step ends with the record and no state, so every write it made is discarded (R901). -/
def raise (record : Fault) : StepResult := .fault record

/-- What a fault leaves: the state before the step, and only the status changed (R901). -/
def State.enterFaulted (s : State) (record : Fault) : State := { s with status := .faulted record }

/-- Goes on unless a check has found a fault (R910: the first check that fails ends the step). -/
def orFault (check : Option Fault) (result : StepResult) : StepResult :=
  match check with
  | some record => raise record
  | none => result

/-- The cause code of R900. -/
def Fault.code (f : Fault) : Nat :=
  match f with
  | .fetchRange _ => 1
  | .illegalOpcode _ _ => 2
  | .stackUnderflow _ _ => 3
  | .stackOverflow _ _ => 4
  | .indexRange _ _ _ => 5
  | .keyRange _ _ _ => 6
  | .memoryRange _ _ _ _ => 7
  | .lowWrite _ _ _ _ => 8
  | .indexOverflow _ _ _ => 9
  | .drawEdge _ _ _ _ => 10

/-- The pc of the record, the address of the faulting instruction (R902). -/
def Fault.recordPc (f : Fault) : Word :=
  match f with
  | .fetchRange pc => pc
  | .illegalOpcode pc _ => pc
  | .stackUnderflow pc _ => pc
  | .stackOverflow pc _ => pc
  | .indexRange pc _ _ => pc
  | .keyRange pc _ _ => pc
  | .memoryRange pc _ _ _ => pc
  | .lowWrite pc _ _ _ => pc
  | .indexOverflow pc _ _ => pc
  | .drawEdge pc _ _ _ => pc

/-- The opcode of the record, absent for FetchRange (R902). -/
def Fault.recordOpc (f : Fault) : Option Word :=
  match f with
  | .fetchRange _ => none
  | .illegalOpcode _ opc => some opc
  | .stackUnderflow _ opc => some opc
  | .stackOverflow _ opc => some opc
  | .indexRange _ opc _ => some opc
  | .keyRange _ opc _ => some opc
  | .memoryRange _ opc _ _ => some opc
  | .lowWrite _ opc _ _ => some opc
  | .indexOverflow _ opc _ => some opc
  | .drawEdge _ opc _ _ => some opc

/-! ### The parts of a step around its instruction (30_encoding.md) -/

/-- The fetch (R330): a fault when `pc + 1 >= 4096`, else the opcode, high byte first (20_memory.md R235). -/
def State.fetch (s : State) : Except Fault Word :=
  if s.pc.toNat + 1 ≥ memSize then .error (.fetchRange s.pc)
  else .ok (beWord (s.memRead s.pc.toNat) (s.memRead (s.pc.toNat + 1)))

/-- The fetch's `pc <- A + 2` (R330). -/
def State.advance (s : State) : State := s.setPc (s.pc + 2)

/-- `tick(t)`: one down, floored at 0 (43_timers_keypad.md R701). -/
def tick (t : Byte) : Byte := if t = 0 then 0 else t - 1

/-- The end of a completed step: both timers tick (R333), `phase <- Started` (R334), and the step's random byte is
used up (10_state.md R131). -/
def State.endStep (s : State) : State :=
  { s with dt := tick s.dt, st := tick s.st, phase := .started, randIn := none, draws := s.draws + 1 }

/-- Ends the step when its instruction completed (R333, R334). -/
def endOfStep (result : StepResult) : StepResult :=
  match result with
  | .next s => .next s.endStep
  | .fault record => raise record
  | .refused why => .refused why

/-! ### The host's ROM load and key input -/

/-- How a ROM load ends (70_reset_and_hazards.md R1010 to R1012). -/
inductive LoadResult where
  | loaded (s : State)
  | configurationError
  | notAdmitted
  deriving DecidableEq, Repr

/-- The ROM load: admitted in phase `fresh` (R1010); a bad length is a configuration error with no effect (R1011);
else the bytes are copied to 0x200 on and the phase is `loaded` (R1012). -/
def State.loadRom (s : State) (rom : List Byte) : LoadResult :=
  if s.phase = .fresh then
    if romWellFormed rom then .loaded { s.memWriteAll 0x200 rom with phase := .loaded }
    else .configurationError
  else .notAdmitted

/-- `set_key(k, down)` (60_exceptions.md R943). -/
def State.setKey (s : State) (k : Fin 16) (down : Bool) : State := { s with key := s.key.set k.val down }

end Sys2Proof.Machine
end

