-- ==== Sys2Proof/Machine/Flags.lean ====
section
/-! DEFINITION. Every flag the block computes, on 8-bit unsigned values (41_alu.md R570). -/

namespace Sys2Proof.Machine

/-- The byte VF receives for a flag, 1 or 0 (10_state.md R103). -/
def flagByte (flag : Bool) : Byte := if flag then 1 else 0

/-- `VF <- flag` (10_state.md R103). -/
def State.setFlag (s : State) (flag : Bool) : State := s.setV vf (flagByte flag)

/-- The carry of 8xy4: the true sum exceeds 255 (R530). -/
def carryOut (a b : Byte) : Bool := decide (a.toNat + b.toNat > 255)

/-- The not-borrow of 8xy5 and 8xy7: the minuend is at least the subtrahend (R535, R545). -/
def notBorrow (minuend subtrahend : Byte) : Bool := decide (minuend.toNat ≥ subtrahend.toNat)

/-- The bit 8xy6 shifts out (R540). -/
def lowBit (b : Byte) : Bool := b.getLsbD 0

/-- The bit 8xyE shifts out (R550). -/
def highBit (b : Byte) : Bool := b.getLsbD 7

end Sys2Proof.Machine
end

