-- ==== Sys2Proof/Machine/Operands.lean ====
section
/-! DEFINITION. What an instruction's operands select, and the checks its rule makes before any effect. An instruction
runs after the fetch has advanced pc, so `pc` is A + 2 here (00_scope.md R16). -/

namespace Sys2Proof.Machine

/-- A, the address of the instruction being executed: pc - 2 (00_scope.md R16). -/
def State.instrAddr (s : State) : Word := s.pc - 2

/-- `skip` when the condition holds: pc <- pc + 2 (40_control_flow.md R463). -/
def State.skipIf (s : State) (cond : Bool) : State := if cond then s.setPc (s.pc + 2) else s

/-- `CheckRange(I, len)` (20_memory.md R230) for the instruction `i`. -/
def State.checkRange (s : State) (i : Instr) (len : Nat) : Option Fault :=
  if s.index.toNat + len > memSize then
    some (.memoryRange s.instrAddr (encode i) s.index.toNat len)
  else none

/-- `CheckLowWrite(I, len)` (20_memory.md R231) for the instruction `i`. -/
def State.checkLowWrite (s : State) (i : Instr) (len : Nat) : Option Fault :=
  if len > 0 ∧ s.index.toNat < 0x200 ∧ s.params.lowWrite = .fault then
    some (.lowWrite s.instrAddr (encode i) s.index.toNat len)
  else none

/-- `index.load(v)` (42_index_memory.md R601) for the instruction `i`. -/
def State.indexLoad (s : State) (i : Instr) (value : Nat) : StepResult :=
  if value > 0xFFF then raise (.indexRange s.instrAddr (encode i) value)
  else .next (s.setIndex (BitVec.ofNat 16 value))

/-- `index.add(v)` (42_index_memory.md R602) for the instruction `i`: no check against 0xFFF, a fault past 0xFFFF. -/
def State.indexAdd (s : State) (i : Instr) (b : Byte) : StepResult :=
  if s.index.toNat + b.toNat > 0xFFFF then
    raise (.indexOverflow s.instrAddr (encode i) (s.index.toNat + b.toNat))
  else .next (s.setIndex (BitVec.ofNat 16 (s.index.toNat + b.toNat)))

/-- The level of key `k` (10_state.md R125). -/
def State.keyDown (s : State) (k : Fin 16) : Bool := s.key[k.val]

/-- `keypad.is_pressed(k)` (43_timers_keypad.md R730): `none` when k is above 15. -/
def State.isPressed (s : State) (k : Byte) : Option Bool :=
  if h : k.toNat < 16 then some (s.keyDown ⟨k.toNat, h⟩) else none

/-- `keypad.pressed_key()` (43_timers_keypad.md R731): the lowest key down, or `none`. -/
def State.pressedKey (s : State) : Option (Fin 16) :=
  (List.finRange 16).find? (fun k => s.keyDown k)

/-- The bytes V0 to Vx, in order (42_index_memory.md R650). -/
def State.regsUpTo (s : State) (x : Reg) : List Byte := s.v.toList.take (x.val + 1)

/-- V0 to Vx loaded from memory at `base`, the registers above x kept (42_index_memory.md R660). -/
def State.loadRegs (s : State) (base : Nat) (x : Reg) : State :=
  { s with v := Vector.ofFn (fun r : Reg => if r ≤ x then s.memRead (base + r.val) else s.getV r) }

end Sys2Proof.Machine
end

