-- ==== Sys2Proof/Machine/Alu.lean ====
section
/-! DEFINITION. Register loads, arithmetic, logic, shifts and random (41_alu.md). Statements run in the order of the
rule, each seeing the writes before it (00_scope.md R15), which decides what VF holds when it is the destination
(R571). None changes pc and none faults. -/

namespace Sys2Proof.Machine

/-- 6xkk LD Vx, kk (R500). -/
def execLdByte (x : Reg) (kk : Byte) (s : State) : StepResult := .next (s.setV x kk)

/-- 7xkk ADD Vx, kk (R505): no flag. -/
def execAddByte (x : Reg) (kk : Byte) (s : State) : StepResult := .next (s.setV x (s.getV x + kk))

/-- 8xy0 LD Vx, Vy (R510). -/
def execLdReg (x y : Reg) (s : State) : StepResult := .next (s.setV x (s.getV y))

/-- 8xy1 OR Vx, Vy (R515): no flag. -/
def execOrReg (x y : Reg) (s : State) : StepResult := .next (s.setV x (s.getV x ||| s.getV y))

/-- 8xy2 AND Vx, Vy (R520): no flag. -/
def execAndReg (x y : Reg) (s : State) : StepResult := .next (s.setV x (s.getV x &&& s.getV y))

/-- 8xy3 XOR Vx, Vy (R525): no flag. -/
def execXorReg (x y : Reg) (s : State) : StepResult := .next (s.setV x (s.getV x ^^^ s.getV y))

/-- 8xy4 ADD Vx, Vy (R530): the carry is written last. -/
def execAddReg (x y : Reg) (s : State) : StepResult :=
  let vx := s.getV x
  let vy := s.getV y
  .next ((s.setV x (vx + vy)).setFlag (carryOut vx vy))

/-- 8xy5 SUB Vx, Vy (R535): the not-borrow is written last. -/
def execSub (x y : Reg) (s : State) : StepResult :=
  let vx := s.getV x
  let vy := s.getV y
  .next ((s.setV x (vx - vy)).setFlag (notBorrow vx vy))

/-- 8xy7 SUBN Vx, Vy (R545): the not-borrow is written last. -/
def execSubn (x y : Reg) (s : State) : StepResult :=
  let vx := s.getV x
  let vy := s.getV y
  .next ((s.setV x (vy - vx)).setFlag (notBorrow vy vx))

/-- 8xy6 SHR Vx (R540): VF is written first and Vx is then read again, so VF ends 0 when x = 15. -/
def execShr (x : Reg) (s : State) : StepResult :=
  let s1 := s.setFlag (lowBit (s.getV x))
  .next (s1.setV x (s1.getV x >>> 1))

/-- 8xyE SHL Vx (R550): VF is written first and Vx is then read again. -/
def execShl (x : Reg) (s : State) : StepResult :=
  let s1 := s.setFlag (highBit (s.getV x))
  .next (s1.setV x (s1.getV x <<< 1))

/-- Cxkk RND Vx, kk (R560). -/
def execRnd (x : Reg) (kk : Byte) (s : State) : StepResult := .next (s.setV x (s.rand &&& kk))

end Sys2Proof.Machine
end

