-- ==== Sys2Proof/Machine/ControlFlow.lean ====
section
/-! DEFINITION. Returns, jumps, calls and skips (40_control_flow.md). Each runs with pc = A + 2 (00_scope.md R16). -/

namespace Sys2Proof.Machine

/-- 00EE RET (R400); the popped slot is not cleared (10_state.md R119). -/
def execRet (s : State) : StepResult :=
  if h : s.sp.val = 0 then raise (.stackUnderflow s.instrAddr (encode .ret))
  else
    .next { s with
      sp := ⟨s.sp.val - 1, by omega⟩
      pc := s.stack[s.sp.val - 1] }

/-- 1nnn JP nnn (R410). -/
def execJp (nnn : BitVec 12) (s : State) : StepResult := .next (s.setPc (nnn.setWidth 16))

/-- 2nnn CALL nnn (R420): the pushed value is pc, that is A + 2. -/
def execCall (nnn : BitVec 12) (s : State) : StepResult :=
  if h : s.sp.val = 16 then raise (.stackOverflow s.instrAddr (encode (.call nnn)))
  else
    .next { s with
      stack := s.stack.set s.sp.val s.pc (by omega)
      sp := ⟨s.sp.val + 1, by omega⟩
      pc := nnn.setWidth 16 }

/-- 3xkk SE Vx, kk (R440). -/
def execSeByte (x : Reg) (kk : Byte) (s : State) : StepResult := .next (s.skipIf (s.getV x == kk))

/-- 4xkk SNE Vx, kk (R445). -/
def execSneByte (x : Reg) (kk : Byte) (s : State) : StepResult := .next (s.skipIf (s.getV x != kk))

/-- 5xy0 SE Vx, Vy (R450). -/
def execSeReg (x y : Reg) (s : State) : StepResult := .next (s.skipIf (s.getV x == s.getV y))

/-- 9xy0 SNE Vx, Vy (R455). -/
def execSneReg (x y : Reg) (s : State) : StepResult := .next (s.skipIf (s.getV x != s.getV y))

/-- Bnnn JP V0, nnn (R470): V0 plus the full 12-bit offset, at most 0x10FE, so 16 bits hold it. -/
def execJpV0 (nnn : BitVec 12) (s : State) : StepResult :=
  .next (s.setPc ((s.getV 0).setWidth 16 + nnn.setWidth 16))

end Sys2Proof.Machine
end

