-- ==== Sys2Proof/Machine/Display.lean ====
section
/-! DEFINITION. The frame buffer, its clear and the sprite draw (44_display.md). -/

namespace Sys2Proof.Machine

/-! ### Frame-buffer primitives -/

/-- The columns of the screen (00_scope.md R9). -/
def fbWidth : Nat := 64

/-- The rows of the screen (00_scope.md R9). -/
def fbHeight : Nat := 32

/-- An unlisted pixel is off, 0x00 (10_state.md R126). -/
def FrameBuffer.unlisted (_ : Nat) : Byte := 0x00

/-- The canonical form of the frame buffer: 2048 pixels, each listed one 0xFF (10_state.md R126). -/
def FrameBuffer.wf (fb : Cells) : Bool :=
  Cells.wf FrameBuffer.unlisted (fbWidth * fbHeight) fb && fb.all (fun c => c.2 == 0xFF)

/-- `fb[p]` (10_state.md R126). -/
def FrameBuffer.read (fb : Cells) (p : Nat) : Byte := Cells.read FrameBuffer.unlisted fb p

/-- `fb[p] <- b`. -/
def FrameBuffer.write (fb : Cells) (p : Nat) (b : Byte) : Cells := Cells.write FrameBuffer.unlisted fb p b

/-- Pixel (px, py), row-major (10_state.md R126). -/
def State.pixel (s : State) (px py : Nat) : Byte := FrameBuffer.read s.fb (py * fbWidth + px)

/-- `fb.clear()`: every pixel 0x00 (R800). -/
def FrameBuffer.clear : Cells := []

/-! ### Sprites -/

/-- The targets of the set bits of row `r`, column 0 the most significant bit, the walk not wrapped (R810, R811). -/
def rowTargets (x0 y0 r : Nat) (row : Byte) : List (Nat × Nat) :=
  ((List.range 8).filter (fun c => row.getLsbD (7 - c))).map (fun c => (x0 + c, y0 + r))

/-- The targets of the set bits of a sprite's rows, `r` the number of the first (R810, R811). -/
def spriteTargets (x0 y0 r : Nat) (rows : List Byte) : List (Nat × Nat) :=
  match rows with
  | [] => []
  | row :: rest => rowTargets x0 y0 r row ++ spriteTargets x0 y0 (r + 1) rest

/-- A target lies on the screen (R812). -/
def onScreen (target : Nat × Nat) : Bool := decide (target.1 < fbWidth) && decide (target.2 < fbHeight)

/-- The targets a draw applies, or `none` when DRAW_EDGE = `fault` and a set bit falls off the screen (R813). -/
def edgeTargets (edge : DrawEdge) (targets : List (Nat × Nat)) : Option (List (Nat × Nat)) :=
  match edge with
  | .clip => some (targets.filter onScreen)
  | .wrap => some (targets.map (fun t => (t.1 % fbWidth, t.2 % fbHeight)))
  | .fault => if targets.all onScreen then some targets else none

/-- One set bit: a collision when the pixel is lit, then the pixel is flipped (R812). -/
def flipPixel (acc : Cells × Bool) (target : Nat × Nat) : Cells × Bool :=
  let p := target.2 * fbWidth + target.1
  let old := FrameBuffer.read acc.1 p
  (FrameBuffer.write acc.1 p (old ^^^ 0xFF), acc.2 || old == 0xFF)

/-- `fb.draw` over the targets: the new frame buffer and `collided`, which starts false (R814). -/
def flipPixels (fb : Cells) (targets : List (Nat × Nat)) : Cells × Bool :=
  targets.foldl flipPixel (fb, false)

/-- The n sprite bytes at I (R820). -/
def State.spriteRows (s : State) (n : Nat) : List Byte :=
  (List.range n).map (fun r => s.memRead (s.index.toNat + r))

/-! ### Instructions -/

/-- 00E0 CLS (R805): VF is not written. -/
def execCls (s : State) : StepResult := .next (s.setFb FrameBuffer.clear)

/-- Dxyn DRW Vx, Vy, n (R820): the anchor and the sprite are read before VF is written, and VF always is. -/
def execDrw (x y : Reg) (n : Fin 16) (s : State) : StepResult :=
  orFault (s.checkRange (.drw x y n) n.val) <|
    let x0 := (s.getV x).toNat % fbWidth
    let y0 := (s.getV y).toNat % fbHeight
    match edgeTargets s.params.drawEdge (spriteTargets x0 y0 0 (s.spriteRows n.val)) with
    | none => raise (.drawEdge s.instrAddr (encode (.drw x y n)) x0 y0)
    | some targets =>
      let drawn := flipPixels s.fb targets
      .next ((s.setFb drawn.1).setFlag drawn.2)

end Sys2Proof.Machine
end

