-- ==== Sys2Proof/Machine/IndexMemory.lean ====
section
/-! DEFINITION. The index register and the memory transfers (42_index_memory.md). None changes pc; the transfers leave
I unchanged. -/

namespace Sys2Proof.Machine

/-- The address of the font table, the anchor of Fx29 (20_memory.md R210). -/
def fontBase : Nat := 0x050

/-- The three decimal digits of a byte, hundreds first (R640). -/
def bcdDigits (b : Byte) : List Byte :=
  [BitVec.ofNat 8 (b.toNat / 100), BitVec.ofNat 8 (b.toNat / 10 % 10), BitVec.ofNat 8 (b.toNat % 10)]

/-- Annn LD I, nnn (R610). -/
def execLdI (nnn : BitVec 12) (s : State) : StepResult := s.indexLoad (.ldI nnn) nnn.toNat

/-- Fx1E ADD I, Vx (R620): VF is not written. -/
def execAddI (x : Reg) (s : State) : StepResult := s.indexAdd (.addI x) (s.getV x)

/-- Fx29 LD F, Vx (R630): the address is not truncated and Vx not masked. -/
def execLdFont (x : Reg) (s : State) : StepResult :=
  s.indexLoad (.ldFont x) (fontBase + 5 * (s.getV x).toNat)

/-- Fx33 LD B, Vx (R640). -/
def execLdBcd (x : Reg) (s : State) : StepResult :=
  orFault (s.checkRange (.ldBcd x) 3) <|
  orFault (s.checkLowWrite (.ldBcd x) 3) <|
  .next (s.memWriteAll s.index.toNat (bcdDigits (s.getV x)))

/-- Fx55 LD [I], Vx (R650). -/
def execStore (x : Reg) (s : State) : StepResult :=
  orFault (s.checkRange (.store x) (x.val + 1)) <|
  orFault (s.checkLowWrite (.store x) (x.val + 1)) <|
  .next (s.memWriteAll s.index.toNat (s.regsUpTo x))

/-- Fx65 LD Vx, [I] (R660). -/
def execLoad (x : Reg) (s : State) : StepResult :=
  orFault (s.checkRange (.load x) (x.val + 1)) <|
  .next (s.loadRegs s.index.toNat x)

end Sys2Proof.Machine
end

