-- ==== Sys2Proof/Machine/TimersKeypad.lean ====
section
/-! DEFINITION. The timers and the keypad (43_timers_keypad.md). The tick at the end of the step is not part of these
(30_encoding.md R333). -/

namespace Sys2Proof.Machine

/-- Fx07 LD Vx, DT (R710): DT before this step's tick. -/
def execLdFromDt (x : Reg) (s : State) : StepResult := .next (s.setV x s.dt)

/-- Fx15 LD DT, Vx (R715). -/
def execLdDt (x : Reg) (s : State) : StepResult := .next (s.setDt (s.getV x))

/-- Fx18 LD ST, Vx (R720). -/
def execLdSt (x : Reg) (s : State) : StepResult := .next (s.setSt (s.getV x))

/-- Ex9E SKP Vx (R740): a fault when Vx is above 15 (R730). -/
def execSkp (x : Reg) (s : State) : StepResult :=
  match s.isPressed (s.getV x) with
  | none => raise (.keyRange s.instrAddr (encode (.skp x)) (s.getV x))
  | some down => .next (s.skipIf down)

/-- ExA1 SKNP Vx (R745): a fault when Vx is above 15 (R730). -/
def execSknp (x : Reg) (s : State) : StepResult :=
  match s.isPressed (s.getV x) with
  | none => raise (.keyRange s.instrAddr (encode (.sknp x)) (s.getV x))
  | some down => .next (s.skipIf (!down))

/-- Fx0A LD Vx, K (R750): the lowest key down, or pc back to this instruction (R755). -/
def execLdKey (x : Reg) (s : State) : StepResult :=
  match s.pressedKey with
  | none => .next (s.setPc (s.pc - 2))
  | some k => .next (s.setV x (BitVec.ofNat 8 k.val))

end Sys2Proof.Machine
end

