-- ==== Sys2Proof/Machine/Step.lean ====
section
/-! DEFINITION. One step: fetch, decode, execute, tick (30_encoding.md R330 to R335), and where its next instruction's
bytes stand. -/

namespace Sys2Proof.Machine

/-- One cycle (R334). A step of a `faulted` state is not admitted (60_exceptions.md R904). -/
def step (s : State) : Host.Outcome State Fault Refusal :=
  match s.status with
  | .faulted record => .refused (.stepNotAdmitted record)
  | .running =>
    match s.fetch with
    | .error record => raise record
    | .ok opc =>
      match decode opc with
      | none => raise (.illegalOpcode s.pc opc)
      | some i => endOfStep (exec i s.advance)

/-- The state with the table word stored where `step` fetches, its high byte at pc and its low byte at pc + 1. It
stands for the ROM load of that word where pc is 0x200 (log entry 11). -/
def State.withFetchWord (s : State) (nbits w : Nat) : State :=
  (s.memWrite s.pc.toNat (hiByte (tableOpcode nbits w))).memWrite (s.pc.toNat + 1)
    (loByte (tableOpcode nbits w))

end Sys2Proof.Machine
end

