-- ==== Sys2Proof/Machine/Transactions.lean ====
section
/-! DEFINITION. The host interface as transactions (60_exceptions.md R940 to R947). The host acts only between steps. -/

namespace Sys2Proof.Machine

/-- What the host may ask of the block (R940). -/
inductive Transaction where
  /-- Starts a run with its parameters (70_reset_and_hazards.md R1000). -/
  | construct (p : Params)
  /-- Hands over a ROM buffer (R1010 to R1012). -/
  | loadRom (rom : List Byte)
  /-- Sets one key level (R943). -/
  | setKey (k : Fin 16) (down : Bool)
  /-- Runs one cycle with a random byte (R944). -/
  | step (rand : Byte)
  /-- Reads the state (R945). -/
  | inspect
  deriving DecidableEq, Repr

/-- What the block answers (R940). -/
inductive Reply where
  | ok
  | configurationError
  | fault (record : Fault)
  | view (s : State)
  | notAdmitted (why : Refusal)
  deriving DecidableEq, Repr

/-- `step(rand)` (R944): one cycle with the host's random byte. A fault leaves the state as it was but for the status
(R901), and answers with the record (R902); a faulted block admits no step (R904). -/
def State.stepWith (s : State) (rand : Byte) : State × Reply :=
  match Sys2Proof.Machine.step { s with randIn := some rand } with
  | .next t => (t, .ok)
  | .fault record => (s.enterFaulted record, .fault record)
  | .refused why => (s, .notAdmitted why)

/-- The load_rom transaction (R1010 to R1012): a configuration error and a load not admitted change nothing. -/
def State.loadRomWith (s : State) (rom : List Byte) : State × Reply :=
  match s.loadRom rom with
  | .loaded t => (t, .ok)
  | .configurationError => (s, .configurationError)
  | .notAdmitted => (s, .notAdmitted .loadNotAdmitted)

/-- One transaction: the state it leaves and its answer. -/
def transact (s : State) (t : Transaction) : State × Reply :=
  match t with
  | .construct p => (State.construct p, .ok)
  | .loadRom rom => s.loadRomWith rom
  | .setKey k down => (s.setKey k down, .ok)
  | .step rand => s.stepWith rand
  | .inspect => (s, .view s)

/-- A run: the host's transactions in order (R946). -/
def transactAll (s : State) (ts : List Transaction) : State :=
  match ts with
  | [] => s
  | t :: rest => transactAll (transact s t).1 rest

end Sys2Proof.Machine
end

