-- ==== Sys2Proof/Safety.lean ====
section
/-! DEFINITION. The terms the claims are stated in: what a change is confined to, when a step runs an instruction, which
words decode to it, which sprite bits land on a pixel, and the invariant of the machine. -/

namespace Sys2Proof.Machine

/-- The kinds of state an instruction can write besides the registers (10_state.md R140). -/
inductive Part where
  | pc
  | index
  | stack
  | dt
  | st
  | fb
  | mem
  deriving DecidableEq, Repr

/-- `t` agrees with `s` on every register not in `regs`, on every part not in `parts`, and on everything no instruction
writes: the keys, the status, the phase, the parameters and the model's own two fields. Memory and the frame buffer
agree when every byte and every pixel reads the same. -/
def OnlyChanges (parts : List Part) (regs : List Reg) (s t : State) : Prop :=
  (∀ r, r ∉ regs → t.getV r = s.getV r) ∧
  (Part.pc ∉ parts → t.pc = s.pc) ∧
  (Part.index ∉ parts → t.index = s.index) ∧
  (Part.stack ∉ parts → t.stack = s.stack ∧ t.sp = s.sp) ∧
  (Part.dt ∉ parts → t.dt = s.dt) ∧
  (Part.st ∉ parts → t.st = s.st) ∧
  (Part.fb ∉ parts → ∀ p, FrameBuffer.read t.fb p = FrameBuffer.read s.fb p) ∧
  (Part.mem ∉ parts → ∀ a, t.memRead a = s.memRead a) ∧
  t.key = s.key ∧ t.status = s.status ∧ t.phase = s.phase ∧ t.params = s.params ∧
  t.randIn = s.randIn ∧ t.draws = s.draws

/-- Every opcode of the row with this match and mask decodes to the instruction `mk` builds from its fields
(30_encoding.md R302, R310). -/
def Decodes (pat mask : Word) (mk : Word → Instr) : Prop :=
  ∀ opc : Word, opc &&& mask = pat → decode opc = some (mk opc)

/-- The opcode at pc, high byte first (20_memory.md R235). -/
def State.opcodeAt (s : State) : Word := beWord (s.memRead s.pc.toNat) (s.memRead (s.pc.toNat + 1))

/-- The next step runs `i`: the block is running, the fetch is in range and the opcode at pc decodes to `i`
(30_encoding.md R330, R331). -/
def State.Runs (s : State) (i : Instr) : Prop :=
  s.status = .running ∧ s.pc.toNat + 1 < 4096 ∧ decode s.opcodeAt = some i

/-! ### Sprites -/

/-- The bit of column `c`, row `r` of the n-row sprite at I is set: column 0 is the most significant bit
(44_display.md R810). -/
def State.spriteBit (s : State) (n c r : Nat) : Bool :=
  decide (r < n) && decide (c < 8) && (s.memRead (s.index.toNat + r)).getLsbD (7 - c)

/-- The anchor's column, Vx mod 64 (R811). -/
def State.anchorX (s : State) (x : Reg) : Nat := (s.getV x).toNat % 64

/-- The anchor's row, Vy mod 32 (R811). -/
def State.anchorY (s : State) (y : Reg) : Nat := (s.getV y).toNat % 32

/-- A set sprite bit lands on pixel (px, py) when the walk does not wrap (R811). -/
def State.hits (s : State) (x y : Reg) (n px py : Nat) : Bool :=
  decide (s.anchorX x ≤ px) && decide (s.anchorY y ≤ py) && s.spriteBit n (px - s.anchorX x) (py - s.anchorY y)

/-- A set sprite bit lands on pixel (px, py) under DRAW_EDGE = `wrap` (R813). -/
def State.hitsWrapped (s : State) (x y : Reg) (n px py : Nat) : Bool :=
  s.spriteBit n ((px + 64 - s.anchorX x) % 64) ((py + 32 - s.anchorY y) % 32)

/-- The drawing of the bits `hit` from `s` to `t`: each pixel hit is flipped, every other keeps its value, and VF is 1
exactly when a lit pixel was hit, else 0 (R812, R814, R820). -/
def Drawn (hit : Nat → Nat → Bool) (s t : State) : Prop :=
  (∀ px < 64, ∀ py < 32, t.pixel px py = if hit px py then s.pixel px py ^^^ 0xFF else s.pixel px py) ∧
  (t.getV vf = 0 ∨ t.getV vf = 1) ∧
  (t.getV vf = 1 ↔ ∃ px < 64, ∃ py < 32, hit px py = true ∧ s.pixel px py = 0xFF)

/-! ### Who writes and reads what (10_state.md R103, R111, R140) -/

/-- The instructions that write VF as a side effect (10_state.md R103). -/
def writesFlag (i : Instr) : Bool :=
  match i with
  | .addReg _ _ | .sub _ _ | .shr _ | .subn _ _ | .shl _ | .drw _ _ _ => true
  | .cls | .ret | .jp _ | .call _ | .seByte _ _ | .sneByte _ _ | .seReg _ _ | .ldByte _ _ | .addByte _ _
  | .ldReg _ _ | .orReg _ _ | .andReg _ _ | .xorReg _ _ | .sneReg _ _ | .ldI _ | .jpV0 _ | .rnd _ _ | .skp _
  | .sknp _ | .ldFromDt _ | .ldKey _ | .ldDt _ | .ldSt _ | .addI _ | .ldFont _ | .ldBcd _ | .store _
  | .load _ => false

/-- The general registers an instruction names as its destination (10_state.md R102). -/
def destinations (i : Instr) : List Reg :=
  match i with
  | .ldByte x _ | .addByte x _ | .ldReg x _ | .orReg x _ | .andReg x _ | .xorReg x _ | .addReg x _ | .sub x _
  | .shr x | .subn x _ | .shl x | .rnd x _ | .ldFromDt x | .ldKey x => [x]
  | .load x => (List.finRange 16).filter (fun r => decide (r ≤ x))
  | .cls | .ret | .jp _ | .call _ | .seByte _ _ | .sneByte _ _ | .seReg _ _ | .sneReg _ _ | .ldI _ | .jpV0 _
  | .drw _ _ _ | .skp _ | .sknp _ | .ldDt _ | .ldSt _ | .addI _ | .ldFont _ | .ldBcd _ | .store _ => []

/-- Key `V[x]` is down (43_timers_keypad.md R740). -/
def State.namedKeyDown (s : State) (x : Reg) : Prop := ∃ k : Fin 16, k.val = (s.getV x).toNat ∧ s.keyDown k = true

/-- The pc after the step that runs `i` at address A = pc of `s`, as a number (10_state.md R111). -/
def State.PcAfter (s : State) (i : Instr) (p : Nat) : Prop :=
  match i with
  | .jp nnn | .call nnn => p = nnn.toNat
  | .ret => p = (s.stack[s.sp.val - 1]).toNat
  | .jpV0 nnn => p = (s.getV 0).toNat + nnn.toNat
  | .seByte x kk => p = s.pc.toNat + if s.getV x = kk then 4 else 2
  | .sneByte x kk => p = s.pc.toNat + if s.getV x = kk then 2 else 4
  | .seReg x y => p = s.pc.toNat + if s.getV x = s.getV y then 4 else 2
  | .sneReg x y => p = s.pc.toNat + if s.getV x = s.getV y then 2 else 4
  | .skp x => (s.namedKeyDown x → p = s.pc.toNat + 4) ∧ (¬ s.namedKeyDown x → p = s.pc.toNat + 2)
  | .sknp x => (s.namedKeyDown x → p = s.pc.toNat + 2) ∧ (¬ s.namedKeyDown x → p = s.pc.toNat + 4)
  | .ldKey _ => ((∃ k, s.keyDown k = true) → p = s.pc.toNat + 2) ∧
      ((∀ k, s.keyDown k = false) → p = s.pc.toNat)
  | .cls | .ldByte _ _ | .addByte _ _ | .ldReg _ _ | .orReg _ _ | .andReg _ _ | .xorReg _ _ | .addReg _ _
  | .sub _ _ | .shr _ | .subn _ _ | .shl _ | .ldI _ | .rnd _ _ | .drw _ _ _ | .ldFromDt _ | .ldDt _ | .ldSt _
  | .addI _ | .ldFont _ | .ldBcd _ | .store _ | .load _ => p = s.pc.toNat + 2

/-- Two results end the same way, with the same record or reason, and their next states are equal once `erase` has made
one field of both the same. -/
def SameUpTo (erase : State → State) (r r' : StepResult) : Prop :=
  match r, r' with
  | .next t, .next t' => erase t = erase t'
  | .fault f, .fault f' => f = f'
  | .refused q, .refused q' => q = q'
  | .next _, .fault _ | .next _, .refused _ | .fault _, .next _ | .fault _, .refused _ | .refused _, .next _
  | .refused _, .fault _ => False

/-! ### The invariant -/

/-- What every state of a run meets: memory and frame buffer are canonical, every pixel is 0x00 or 0xFF
(10_state.md R126), pc is at most 0x10FE (R113), and every stack slot is at most 0x1000 (40_control_flow.md R400). -/
def State.Inv (s : State) : Prop :=
  Memory.wf s.params.font s.mem = true ∧ FrameBuffer.wf s.fb = true ∧
  s.pc.toNat ≤ 0x10FE ∧ ∀ j : Fin 16, (s.stack[j.val]).toNat ≤ 0x1000

end Sys2Proof.Machine
end

