-- ==== Sys2Proof/Certificates/Slice0/Obligations.lean ====
section
/-! DEFINITION. The statements for the provers, from the numbered rules of spec/. `exec` is applied with pc = A + 2
(00_scope.md R16), so A is `s.pc - 2` in a statement about `exec` and `s.pc` in one about `step`. Where a statement
rests on a decision the spec marks as its own (a D<n> of 92_eei_decisions.md) or on a derivation it marks, its docstring
says so and its basis is 'derived'. -/

open Sys2Proof Sys2Proof.Machine

/-! ### Construction and the host's transactions -/

/-- The state after construction, whatever the parameters. That pc is 0x200 is the spec's decision D8; `sp`, `status`
and `phase` are its decisions D13, D7 and D11; that reset takes the defaults is R10's table. -/
def Obligations.ConstructionState : Prop :=
  (∀ p : Params, let s := State.construct p
    (∀ r, s.getV r = 0) ∧ s.pc = 0x200 ∧ s.index = 0 ∧ (∀ j : Fin 16, s.stack[j.val] = 0) ∧ s.sp = 0 ∧ s.dt = 0 ∧
    s.st = 0 ∧ (∀ k, s.keyDown k = false) ∧ (∀ px < 64, ∀ py < 32, s.pixel px py = 0x00) ∧
    s.status = .running ∧ s.phase = .fresh ∧ s.params = p) ∧
  State.reset = State.construct State.reset.params ∧
  State.reset.params.drawEdge = .clip ∧ State.reset.params.lowWrite = .fault

/-- 20_memory.md R213 and 70_reset_and_hazards.md R1012: the address map at construction and after a ROM load, and that
the load changes memory and the phase alone. -/
def Obligations.MemoryMapAndRomLoad : Prop :=
  (∀ (p : Params) (a : Nat), a < 4096 →
    (a < 0x050 → (State.construct p).memRead a = 0) ∧
    (∀ k : Fin 80, a = 0x050 + k.val → (State.construct p).memRead a = p.font[k.val]) ∧
    (0x0A0 ≤ a → (State.construct p).memRead a = 0)) ∧
  (∀ (s : State) (rom : List Byte), s.phase = .fresh → 1 ≤ rom.length → rom.length ≤ 3584 →
    ∃ t, transact s (.loadRom rom) = (t, .ok) ∧
      (∀ (k : Nat) (h : k < rom.length), t.memRead (0x200 + k) = rom[k]) ∧
      (∀ a, a < 0x200 ∨ 0x200 + rom.length ≤ a → t.memRead a = s.memRead a) ∧
      t = { s with mem := t.mem, phase := .loaded })

/-- R1011: a buffer of no bytes, or of more than 3584, is a configuration error and changes nothing, so the phase stays
fresh and a valid load may follow. -/
def Obligations.RomLengthOutOfRange : Prop :=
  ∀ (s : State) (rom : List Byte), s.phase = .fresh → (rom.length = 0 ∨ 3584 < rom.length) →
    transact s (.loadRom rom) = (s, .configurationError) ∧
    ∀ rom' : List Byte, 1 ≤ rom'.length → rom'.length ≤ 3584 →
      (transact (transact s (.loadRom rom)).1 (.loadRom rom')).2 = .ok

/-- A load in phase `loaded` or `started` is refused and changes nothing (the spec's decision D11), and `set_key` sets the
one level and changes nothing else (its decision D9). -/
def Obligations.LateRomLoadAndKeyInput : Prop :=
  (∀ (s : State) (rom : List Byte), s.phase = .loaded ∨ s.phase = .started →
    transact s (.loadRom rom) = (s, .notAdmitted .loadNotAdmitted)) ∧
  (∀ (s : State) (k : Fin 16) (down : Bool), ∃ t, transact s (.setKey k down) = (t, .ok) ∧
    (∀ j, t.keyDown j = if j = k then down else s.keyDown j) ∧ t = { s with key := t.key })

/-- R904: a faulted block admits no step, no transaction but a new construction clears its status, and it may still be
inspected. -/
def Obligations.FaultIsTerminal : Prop :=
  ∀ (s : State) (record : Fault), s.status = .faulted record →
    step s = .refused (.stepNotAdmitted record) ∧
    (∀ rand, transact s (.step rand) = (s, .notAdmitted (.stepNotAdmitted record))) ∧
    (∀ tx, (∀ p, tx ≠ .construct p) → (transact s tx).1.status = .faulted record) ∧
    transact s .inspect = (s, .view s) ∧
    (∀ p, (transact s (.construct p)).1.status = .running)

/-- What the step transaction leaves: after a fault, the state before it and only the status changed (the spec's
decision D7), with the record as the answer; after a completed step, its next state. -/
def Obligations.StepTransaction : Prop :=
  ∀ (s : State) (rand : Byte),
    (∀ f, step { s with randIn := some rand } = .fault f →
      transact s (.step rand) = ({ s with status := .faulted f }, .fault f)) ∧
    (∀ t, step { s with randIn := some rand } = .next t → transact s (.step rand) = (t, .ok))

/-! ### The cycle -/

/-- R330, R331 and R333: the fetch fault, the illegal opcode, and otherwise the instruction run with pc = A + 2, which
completes or faults and is never refused, and then one tick of both timers; the phase becomes `started` (R334). That the
step's random byte is then used up, `randIn` and `draws`, is the model's own (log entry 3). -/
def Obligations.StepRunsDecodedInstruction : Prop :=
  ∀ s : State, s.status = .running →
    (4096 ≤ s.pc.toNat + 1 → step s = .fault (.fetchRange s.pc)) ∧
    (s.pc.toNat + 1 < 4096 → decode s.opcodeAt = none → step s = .fault (.illegalOpcode s.pc s.opcodeAt)) ∧
    (∀ i, s.Runs i →
      (∀ t, exec i { s with pc := s.pc + 2 } = .next t →
        step s = .next { t with
          dt := if t.dt = 0 then 0 else t.dt - 1
          st := if t.st = 0 then 0 else t.st - 1
          phase := .started
          randIn := none
          draws := t.draws + 1 }) ∧
      (∀ f, exec i { s with pc := s.pc + 2 } = .fault f → step s = .fault f) ∧
      (∀ q, exec i { s with pc := s.pc + 2 } ≠ .refused q))

/-- R701: the tick saturates at 0 and is applied to both timers at the end of every step that completes, whatever the
instruction, and at no other time: not by a step that faults, nor by a transaction that is no step. -/
def Obligations.TimersTickOncePerStep : Prop :=
  (∀ b : Byte, (tick b).toNat = b.toNat - 1) ∧
  (∀ (s t : State) (i : Instr), s.Runs i → step s = .next t →
    t.dt = tick (match i with | .ldDt x => s.getV x | _ => s.dt) ∧
    t.st = tick (match i with | .ldSt x => s.getV x | _ => s.st)) ∧
  (∀ (s : State) (rand : Byte) (f : Fault), step { s with randIn := some rand } = .fault f →
    (transact s (.step rand)).1.dt = s.dt ∧ (transact s (.step rand)).1.st = s.st) ∧
  (∀ (s : State) (tx : Transaction), (∀ p, tx ≠ .construct p) → (∀ rand, tx ≠ .step rand) →
    (transact s tx).1.dt = s.dt ∧ (transact s tx).1.st = s.st)

/-- The record of a fault names the instruction: its pc is A and its opcode the two bytes there, absent only for a fetch
that could not be made (R902's pc and opc; that the state is unchanged is D7). -/
def Obligations.FaultRecordNamesInstruction : Prop :=
  ∀ (s : State) (f : Fault), step s = .fault f →
    f.recordPc = s.pc ∧
    (s.pc.toNat + 1 < 4096 → f.recordOpc = some s.opcodeAt) ∧
    (4096 ≤ s.pc.toNat + 1 → f = .fetchRange s.pc ∧ f.recordOpc = none)

/-! ### Encoding -/

/-- Decode inverts encode for every instruction and every operand value, on words and on bytes. -/
def Obligations.DecodeInvertsEncode : Prop :=
  (∀ i : Instr, decode (encode i) = some i) ∧
  (∀ (i : Instr) (rest : List Byte), decodeBytes (encodeBytes i ++ rest) = .ok (i, rest))

/-- R321: an opcode is legal exactly when it is in one of the 34 rows, its instruction is that row's, and 0x0000 is
illegal. -/
def Obligations.LegalOpcodesAreTheRows : Prop :=
  (∀ opc : Word, (∃ i, decode opc = some i) ↔ ∃ row ∈ opcodeMap, opc &&& row.mask = row.pat) ∧
  (∀ (opc : Word) (i : Instr), decode opc = some i →
    ∃ row ∈ opcodeMap, rowOf i = some row ∧ opc &&& row.mask = row.pat) ∧
  opcodeMap.length = 34 ∧ decode 0x0000 = none

/-- No opcode is in two rows of the map (the spec marks the sentence as derived from the table). -/
def Obligations.OpcodeRowsExclusive : Prop :=
  ∀ (opc : Word) (a b : OpRow), a ∈ opcodeMap → b ∈ opcodeMap →
    opc &&& a.mask = a.pat → opc &&& b.mask = b.pat → a = b

/-- R303: recomposing the fields gives the opcode back. -/
def Obligations.FieldsRecompose : Prop :=
  ∀ opc : Word,
    opc.toNat = (fieldOp opc).toNat <<< 12 ||| (fieldX opc).val <<< 8 ||| (fieldY opc).val <<< 4 ||| (fieldN opc).val ∧
    opc.toNat = (fieldOp opc).toNat <<< 12 ||| (fieldNnn opc).toNat ∧
    opc.toNat = (fieldOp opc).toNat <<< 12 ||| (fieldX opc).val <<< 8 ||| (fieldKk opc).toNat

/-- The decode vectors of 95_test_vectors.md section 2.1. -/
def Obligations.SpecVectorsDecode : Prop :=
  decode 0x00E0 = some .cls ∧ decode 0x00EE = some .ret ∧ decode 0x0000 = none ∧ decode 0x0123 = none ∧ decode 0x00E1 = none ∧
  decode 0x00FF = none ∧ decode 0x5121 = none ∧ decode 0x5120 = some (.seReg 1 2) ∧ decode 0x8128 = none ∧
  decode 0x812D = none ∧ decode 0x812F = none ∧ decode 0x80E6 = some (.shr 0) ∧ decode 0x9121 = none ∧
  decode 0xE19E = some (.skp 1) ∧ decode 0xE1A1 = some (.sknp 1) ∧ decode 0xE1A2 = none ∧ decode 0xE19F = none ∧
  decode 0xF10A = some (.ldKey 1) ∧ decode 0xF100 = none ∧ decode 0xF1FF = none ∧ decode 0xF156 = none ∧
  decode 0xB123 = some (.jpV0 0x123)

/-- The illegal opcodes are exactly those R320 lists (its counts, marked as derived, are not stated). -/
def Obligations.IllegalOpcodesListed : Prop :=
  ∀ opc : Word, decode opc = none ↔
    (fieldOp opc = 0x0 ∧ opc ≠ 0x00E0 ∧ opc ≠ 0x00EE) ∨
    (fieldOp opc = 0x5 ∧ fieldN opc ≠ 0) ∨
    (fieldOp opc = 0x9 ∧ fieldN opc ≠ 0) ∨
    (fieldOp opc = 0x8 ∧ fieldN opc ∈ [8, 9, 10, 11, 12, 13, 15]) ∨
    (fieldOp opc = 0xE ∧ fieldKk opc ∉ [0x9E, 0xA1]) ∨
    (fieldOp opc = 0xF ∧ fieldKk opc ∉ [0x07, 0x0A, 0x15, 0x18, 0x1E, 0x29, 0x33, 0x55, 0x65])

/-! ### Register loads, arithmetic, logic, shifts, random -/

/-- R500 and R510. -/
def Obligations.LoadByteAndMove : Prop :=
  Decodes 0x6000 0xF000 (fun w => .ldByte (fieldX w) (fieldKk w)) ∧
  Decodes 0x8000 0xF00F (fun w => .ldReg (fieldX w) (fieldY w)) ∧
  ∀ (s : State) (x y : Reg) (kk : Byte),
    (∃ t, exec (.ldByte x kk) s = .next t ∧ t.getV x = kk ∧ OnlyChanges [] [x] s t) ∧
    (∃ t, exec (.ldReg x y) s = .next t ∧ t.getV x = s.getV y ∧ OnlyChanges [] [x] s t)

/-- R505: the sum modulo 256, and no flag: VF changes only as the named destination. -/
def Obligations.AddByteWrapsWithoutFlag : Prop :=
  Decodes 0x7000 0xF000 (fun w => .addByte (fieldX w) (fieldKk w)) ∧
  ∀ (s : State) (x : Reg) (kk : Byte),
    ∃ t, exec (.addByte x kk) s = .next t ∧ (t.getV x).toNat = ((s.getV x).toNat + kk.toNat) % 256 ∧
      OnlyChanges [] [x] s t

/-- R515, R520 and R525: bitwise OR, AND and XOR, with no flag. -/
def Obligations.LogicOperations : Prop :=
  Decodes 0x8001 0xF00F (fun w => .orReg (fieldX w) (fieldY w)) ∧
  Decodes 0x8002 0xF00F (fun w => .andReg (fieldX w) (fieldY w)) ∧
  Decodes 0x8003 0xF00F (fun w => .xorReg (fieldX w) (fieldY w)) ∧
  ∀ (s : State) (x y : Reg),
    (∃ t, exec (.orReg x y) s = .next t ∧ (t.getV x).toNat = (s.getV x).toNat ||| (s.getV y).toNat ∧
      OnlyChanges [] [x] s t) ∧
    (∃ t, exec (.andReg x y) s = .next t ∧ (t.getV x).toNat = (s.getV x).toNat &&& (s.getV y).toNat ∧
      OnlyChanges [] [x] s t) ∧
    (∃ t, exec (.xorReg x y) s = .next t ∧ (t.getV x).toNat = (s.getV x).toNat ^^^ (s.getV y).toNat ∧
      OnlyChanges [] [x] s t)

/-- R530: the sum modulo 256 and the carry, the carry written last, operands read before. -/
def Obligations.AddSetsCarry : Prop :=
  Decodes 0x8004 0xF00F (fun w => .addReg (fieldX w) (fieldY w)) ∧
  ∀ (s : State) (x y : Reg),
    ∃ t, exec (.addReg x y) s = .next t ∧
      t.getV vf = (if (s.getV x).toNat + (s.getV y).toNat > 255 then 1 else 0) ∧
      (x ≠ vf → (t.getV x).toNat = ((s.getV x).toNat + (s.getV y).toNat) % 256) ∧
      OnlyChanges [] [x, vf] s t

/-- R535 and R545: the difference modulo 256 and the not-borrow, the flag written last, operands read before. -/
def Obligations.SubtractSetsNotBorrow : Prop :=
  Decodes 0x8005 0xF00F (fun w => .sub (fieldX w) (fieldY w)) ∧
  Decodes 0x8007 0xF00F (fun w => .subn (fieldX w) (fieldY w)) ∧
  ∀ (s : State) (x y : Reg),
    (∃ t, exec (.sub x y) s = .next t ∧
      t.getV vf = (if (s.getV x).toNat ≥ (s.getV y).toNat then 1 else 0) ∧
      (x ≠ vf → ((t.getV x).toNat : Int) = (((s.getV x).toNat : Int) - (s.getV y).toNat) % 256) ∧
      OnlyChanges [] [x, vf] s t) ∧
    (∃ t, exec (.subn x y) s = .next t ∧
      t.getV vf = (if (s.getV y).toNat ≥ (s.getV x).toNat then 1 else 0) ∧
      (x ≠ vf → ((t.getV x).toNat : Int) = (((s.getV y).toNat : Int) - (s.getV x).toNat) % 256) ∧
      OnlyChanges [] [x, vf] s t)

/-- 8xy6 and 8xyE: the bit shifted out in VF and the shifted value in Vx; with x = 15 VF ends 0 and twice the old bit 7
(the spec's decision D18 on the order of the two writes). The y field is ignored. -/
def Obligations.ShiftsReadInOrder : Prop :=
  Decodes 0x8006 0xF00F (fun w => .shr (fieldX w)) ∧
  Decodes 0x800E 0xF00F (fun w => .shl (fieldX w)) ∧
  ∀ (s : State) (x : Reg),
    (∃ t, exec (.shr x) s = .next t ∧
      (x ≠ vf → (t.getV vf).toNat = (s.getV x).toNat % 2 ∧ (t.getV x).toNat = (s.getV x).toNat / 2) ∧
      (x = vf → t.getV vf = 0) ∧
      OnlyChanges [] [x, vf] s t) ∧
    (∃ t, exec (.shl x) s = .next t ∧
      (x ≠ vf → (t.getV vf).toNat = (s.getV x).toNat / 128 ∧ (t.getV x).toNat = 2 * (s.getV x).toNat % 256) ∧
      (x = vf → (t.getV vf).toNat = 2 * ((s.getV x).toNat / 128)) ∧
      OnlyChanges [] [x, vf] s t)

/-- R560: the random byte of the step AND kk: the host's byte where it has said one; whatever the byte, no bit outside kk
is set. -/
def Obligations.RandomAndMask : Prop :=
  Decodes 0xC000 0xF000 (fun w => .rnd (fieldX w) (fieldKk w)) ∧
  ∀ (s : State) (x : Reg) (kk : Byte),
    ∃ t, exec (.rnd x kk) s = .next t ∧
      (∀ r, s.randIn = some r → t.getV x = r &&& kk) ∧
      (∃ r : Byte, t.getV x = r &&& kk) ∧
      t.getV x &&& ~~~kk = 0 ∧
      OnlyChanges [] [x] s t

/-! ### Control flow -/

/-- R410: an absolute jump, to any address, odd ones included. -/
def Obligations.JumpAbsolute : Prop :=
  Decodes 0x1000 0xF000 (fun w => .jp (fieldNnn w)) ∧
  ∀ (s : State) (nnn : BitVec 12),
    ∃ t, exec (.jp nnn) s = .next t ∧ t.pc.toNat = nnn.toNat ∧ OnlyChanges [.pc] [] s t

/-- Bnnn: V0 plus the full 12-bit offset, with no mod (the spec's decision D1). -/
def Obligations.JumpIndexedByV0 : Prop :=
  Decodes 0xB000 0xF000 (fun w => .jpV0 (fieldNnn w)) ∧
  ∀ (s : State) (nnn : BitVec 12),
    ∃ t, exec (.jpV0 nnn) s = .next t ∧ t.pc.toNat = (s.getV 0).toNat + nnn.toNat ∧ OnlyChanges [.pc] [] s t

/-- 2nnn: with room on the stack, A + 2 is pushed and pc is nnn; with 16 addresses held, a StackOverflow fault (the
spec's decision D2). -/
def Obligations.CallPushesReturnAddress : Prop :=
  Decodes 0x2000 0xF000 (fun w => .call (fieldNnn w)) ∧
  ∀ (s : State) (nnn : BitVec 12),
    (s.sp.val < 16 → ∃ t, exec (.call nnn) s = .next t ∧ t.pc.toNat = nnn.toNat ∧ t.sp.val = s.sp.val + 1 ∧
      (∀ j : Fin 16, t.stack[j.val] = if j.val = s.sp.val then s.pc else s.stack[j.val]) ∧
      OnlyChanges [.pc, .stack] [] s t) ∧
    (s.sp.val = 16 → exec (.call nnn) s = .fault (.stackOverflow (s.pc - 2) (encode (.call nnn))))

/-- R400: with an address held, it is popped into pc and its slot kept; with none, a StackUnderflow fault. -/
def Obligations.ReturnPopsAddress : Prop :=
  Decodes 0x00EE 0xFFFF (fun _ => .ret) ∧
  ∀ s : State,
    (0 < s.sp.val → ∃ t, exec .ret s = .next t ∧ t.pc = s.stack[s.sp.val - 1] ∧ t.sp.val = s.sp.val - 1 ∧
      t.stack = s.stack ∧ OnlyChanges [.pc, .stack] [] s t) ∧
    (s.sp.val = 0 → exec .ret s = .fault (.stackUnderflow (s.pc - 2) 0x00EE))

/-- R440 and R445: skip when Vx is, or is not, kk. -/
def Obligations.SkipOnByte : Prop :=
  Decodes 0x3000 0xF000 (fun w => .seByte (fieldX w) (fieldKk w)) ∧
  Decodes 0x4000 0xF000 (fun w => .sneByte (fieldX w) (fieldKk w)) ∧
  ∀ (s : State) (x : Reg) (kk : Byte),
    (∃ t, exec (.seByte x kk) s = .next t ∧ t.pc = (if s.getV x = kk then s.pc + 2 else s.pc) ∧
      OnlyChanges [.pc] [] s t) ∧
    (∃ t, exec (.sneByte x kk) s = .next t ∧ t.pc = (if s.getV x = kk then s.pc else s.pc + 2) ∧
      OnlyChanges [.pc] [] s t)

/-- R450 and R455: skip when Vx is, or is not, Vy. -/
def Obligations.SkipOnRegister : Prop :=
  Decodes 0x5000 0xF00F (fun w => .seReg (fieldX w) (fieldY w)) ∧
  Decodes 0x9000 0xF00F (fun w => .sneReg (fieldX w) (fieldY w)) ∧
  ∀ (s : State) (x y : Reg),
    (∃ t, exec (.seReg x y) s = .next t ∧ t.pc = (if s.getV x = s.getV y then s.pc + 2 else s.pc) ∧
      OnlyChanges [.pc] [] s t) ∧
    (∃ t, exec (.sneReg x y) s = .next t ∧ t.pc = (if s.getV x = s.getV y then s.pc else s.pc + 2) ∧
      OnlyChanges [.pc] [] s t)

/-- The pc after each instruction, all 34 of them (R111, which the spec marks as derived from the instruction rules). -/
def Obligations.ProgramCounterAfterEachInstruction : Prop :=
  ∀ (s t : State) (i : Instr), s.Runs i → step s = .next t → s.PcAfter i t.pc.toNat

/-- A jump to its own address: the step completes and changes the timers alone, besides the bookkeeping of a completed
step (the spec's decision D21 names this the normal end of a run). -/
def Obligations.JumpToSelfHolds : Prop :=
  ∀ (s : State) (nnn : BitVec 12), s.Runs (.jp nnn) → nnn.toNat = s.pc.toNat →
    ∃ t, step s = .next t ∧
      t = { s with dt := tick s.dt, st := tick s.st, phase := .started, randIn := none, draws := s.draws + 1 } ∧
      t.Runs (.jp nnn)

/-! ### The index register and memory -/

/-- R610: I is nnn, for every nnn. -/
def Obligations.LoadIndex : Prop :=
  Decodes 0xA000 0xF000 (fun w => .ldI (fieldNnn w)) ∧
  ∀ (s : State) (nnn : BitVec 12),
    ∃ t, exec (.ldI nnn) s = .next t ∧ t.index.toNat = nnn.toNat ∧ OnlyChanges [.index] [] s t

/-- Fx1E: the sum is stored unchecked up to 0xFFFF, no flag; past it an IndexOverflow fault (the spec's decision D6). -/
def Obligations.AddToIndex : Prop :=
  Decodes 0xF01E 0xF0FF (fun w => .addI (fieldX w)) ∧
  ∀ (s : State) (x : Reg),
    (s.index.toNat + (s.getV x).toNat ≤ 0xFFFF → ∃ t, exec (.addI x) s = .next t ∧
      t.index.toNat = s.index.toNat + (s.getV x).toNat ∧ OnlyChanges [.index] [] s t) ∧
    (0xFFFF < s.index.toNat + (s.getV x).toNat → exec (.addI x) s =
      .fault (.indexOverflow (s.pc - 2) (encode (.addI x)) (s.index.toNat + (s.getV x).toNat)))

/-- Fx29: I is 0x050 + 5 * Vx, neither truncated nor masked (the spec's decision D19). -/
def Obligations.LoadGlyphAddress : Prop :=
  Decodes 0xF029 0xF0FF (fun w => .ldFont (fieldX w)) ∧
  ∀ (s : State) (x : Reg),
    ∃ t, exec (.ldFont x) s = .next t ∧ t.index.toNat = 0x050 + 5 * (s.getV x).toNat ∧ OnlyChanges [.index] [] s t

/-- Fx33: the three decimal digits at I, I + 1 and I + 2; a MemoryRange fault past 0xFFF (the spec's decision D5), a
LowWrite fault below 0x200 with LOW_WRITE = `fault` (its decision D4); I unchanged. -/
def Obligations.StoreDecimalDigits : Prop :=
  Decodes 0xF033 0xF0FF (fun w => .ldBcd (fieldX w)) ∧
  ∀ (s : State) (x : Reg), let a := s.index.toNat
    (a + 3 ≤ 4096 → (0x200 ≤ a ∨ s.params.lowWrite = .write) → ∃ t, exec (.ldBcd x) s = .next t ∧
      (t.memRead a).toNat = (s.getV x).toNat / 100 ∧
      (t.memRead (a + 1)).toNat = (s.getV x).toNat / 10 % 10 ∧
      (t.memRead (a + 2)).toNat = (s.getV x).toNat % 10 ∧
      (∀ p, p < a ∨ a + 2 < p → t.memRead p = s.memRead p) ∧
      OnlyChanges [.mem] [] s t) ∧
    (4096 < a + 3 → exec (.ldBcd x) s = .fault (.memoryRange (s.pc - 2) (encode (.ldBcd x)) a 3)) ∧
    (a < 0x200 → s.params.lowWrite = .fault →
      exec (.ldBcd x) s = .fault (.lowWrite (s.pc - 2) (encode (.ldBcd x)) a 3))

/-- Fx55: V0 to Vx at I on, every other byte kept; the faults of the decisions D5 and D4; I unchanged. -/
def Obligations.StoreRegisters : Prop :=
  Decodes 0xF055 0xF0FF (fun w => .store (fieldX w)) ∧
  ∀ (s : State) (x : Reg), let a := s.index.toNat
    (a + x.val + 1 ≤ 4096 → (0x200 ≤ a ∨ s.params.lowWrite = .write) → ∃ t, exec (.store x) s = .next t ∧
      (∀ k : Fin 16, k ≤ x → t.memRead (a + k.val) = s.getV k) ∧
      (∀ p, p < a ∨ a + x.val < p → t.memRead p = s.memRead p) ∧
      OnlyChanges [.mem] [] s t) ∧
    (4096 < a + x.val + 1 →
      exec (.store x) s = .fault (.memoryRange (s.pc - 2) (encode (.store x)) a (x.val + 1))) ∧
    (a < 0x200 → s.params.lowWrite = .fault →
      exec (.store x) s = .fault (.lowWrite (s.pc - 2) (encode (.store x)) a (x.val + 1)))

/-- Fx65: V0 to Vx from the bytes at I on, the registers above x kept; the fault of the decision D5; I unchanged. -/
def Obligations.LoadRegisters : Prop :=
  Decodes 0xF065 0xF0FF (fun w => .load (fieldX w)) ∧
  ∀ (s : State) (x : Reg), let a := s.index.toNat
    (a + x.val + 1 ≤ 4096 → ∃ t, exec (.load x) s = .next t ∧
      (∀ k : Fin 16, t.getV k = if k ≤ x then s.memRead (a + k.val) else s.getV k) ∧
      OnlyChanges [] ((List.finRange 16).filter (fun k => decide (k ≤ x))) s t) ∧
    (4096 < a + x.val + 1 →
      exec (.load x) s = .fault (.memoryRange (s.pc - 2) (encode (.load x)) a (x.val + 1)))

/-- `index.load` never faults: no step and no instruction raises IndexRange (the spec marks this as derived). -/
def Obligations.IndexRangeUnreachable : Prop :=
  (∀ (i : Instr) (s : State) (pc opc : Word) (value : Nat), exec i s ≠ .fault (.indexRange pc opc value)) ∧
  (∀ (s : State) (pc opc : Word) (value : Nat), step s ≠ .fault (.indexRange pc opc value))

/-! ### Timers and keypad -/

/-- R710, R715 and R720: the transfers, and what the step that runs them leaves once the timers have ticked. -/
def Obligations.TimerTransfers : Prop :=
  Decodes 0xF007 0xF0FF (fun w => .ldFromDt (fieldX w)) ∧
  Decodes 0xF015 0xF0FF (fun w => .ldDt (fieldX w)) ∧
  Decodes 0xF018 0xF0FF (fun w => .ldSt (fieldX w)) ∧
  (∀ (s : State) (x : Reg),
    (∃ t, exec (.ldFromDt x) s = .next t ∧ t.getV x = s.dt ∧ OnlyChanges [] [x] s t) ∧
    (∃ t, exec (.ldDt x) s = .next t ∧ t.dt = s.getV x ∧ OnlyChanges [.dt] [] s t) ∧
    (∃ t, exec (.ldSt x) s = .next t ∧ t.st = s.getV x ∧ OnlyChanges [.st] [] s t)) ∧
  (∀ (s : State) (x : Reg),
    (s.Runs (.ldFromDt x) → ∃ t, step s = .next t ∧ t.getV x = s.dt ∧ t.dt.toNat = s.dt.toNat - 1) ∧
    (s.Runs (.ldDt x) → ∃ t, step s = .next t ∧ t.dt.toNat = (s.getV x).toNat - 1) ∧
    (s.Runs (.ldSt x) → ∃ t, step s = .next t ∧ t.st.toNat = (s.getV x).toNat - 1))

/-- R730, R740 and R745: skip when key Vx is down, or up; a KeyRange fault when Vx is above 15. -/
def Obligations.SkipOnKey : Prop :=
  Decodes 0xE09E 0xF0FF (fun w => .skp (fieldX w)) ∧
  Decodes 0xE0A1 0xF0FF (fun w => .sknp (fieldX w)) ∧
  ∀ (s : State) (x : Reg),
    (∀ k : Fin 16, (s.getV x).toNat = k.val →
      (∃ t, exec (.skp x) s = .next t ∧ t.pc = (if s.keyDown k = true then s.pc + 2 else s.pc) ∧
        OnlyChanges [.pc] [] s t) ∧
      (∃ t, exec (.sknp x) s = .next t ∧ t.pc = (if s.keyDown k = true then s.pc else s.pc + 2) ∧
        OnlyChanges [.pc] [] s t)) ∧
    (15 < (s.getV x).toNat →
      exec (.skp x) s = .fault (.keyRange (s.pc - 2) (encode (.skp x)) (s.getV x)) ∧
      exec (.sknp x) s = .fault (.keyRange (s.pc - 2) (encode (.sknp x)) (s.getV x)))

/-- R731 and R750: the lowest key down goes to Vx; with none down pc returns to A. -/
def Obligations.WaitForKey : Prop :=
  Decodes 0xF00A 0xF0FF (fun w => .ldKey (fieldX w)) ∧
  ∀ (s : State) (x : Reg),
    (∀ k : Fin 16, s.keyDown k = true → (∀ j < k, s.keyDown j = false) →
      ∃ t, exec (.ldKey x) s = .next t ∧ (t.getV x).toNat = k.val ∧ OnlyChanges [] [x] s t) ∧
    ((∀ k, s.keyDown k = false) →
      ∃ t, exec (.ldKey x) s = .next t ∧ t.pc = s.pc - 2 ∧ OnlyChanges [.pc] [] s t)

/-- The wait of Fx0A is carried by pc alone: with no key down the step leaves everything but the timers (and the
bookkeeping of a completed step) as it was, and runs Fx0A again; with a key down it leaves pc at A + 2 (the spec marks
R755 as derived). -/
def Obligations.KeyWaitHeldByPc : Prop :=
  ∀ (s : State) (x : Reg), s.Runs (.ldKey x) →
    ((∀ k, s.keyDown k = false) → ∃ t, step s = .next t ∧
      t = { s with dt := tick s.dt, st := tick s.st, phase := .started, randIn := none, draws := s.draws + 1 } ∧
      t.Runs (.ldKey x)) ∧
    ((∃ k, s.keyDown k = true) → ∃ t, step s = .next t ∧ t.pc.toNat = s.pc.toNat + 2)

/-! ### Display -/

/-- R800 and R805: every pixel 0x00, and VF not written. -/
def Obligations.ClearScreen : Prop :=
  Decodes 0x00E0 0xFFFF (fun _ => .cls) ∧
  ∀ s : State, ∃ t, exec .cls s = .next t ∧
    (∀ px < 64, ∀ py < 32, t.pixel px py = 0x00) ∧ OnlyChanges [.fb] [] s t

/-- Dxyn under DRAW_EDGE = `clip`: the pixels a set bit lands on are flipped, off-screen bits ignored, VF the collision
(the parameter is the spec's decision D3). -/
def Obligations.DrawClipped : Prop :=
  Decodes 0xD000 0xF000 (fun w => .drw (fieldX w) (fieldY w) (fieldN w)) ∧
  ∀ (s : State) (x y : Reg) (n : Fin 16), s.params.drawEdge = .clip → s.index.toNat + n.val ≤ 4096 →
    ∃ t, exec (.drw x y n) s = .next t ∧ Drawn (s.hits x y n.val) s t ∧ OnlyChanges [.fb] [vf] s t

/-- Dxyn under DRAW_EDGE = `wrap`: each target is taken modulo (64, 32) (the spec's decision D3). -/
def Obligations.DrawWrapped : Prop :=
  ∀ (s : State) (x y : Reg) (n : Fin 16), s.params.drawEdge = .wrap → s.index.toNat + n.val ≤ 4096 →
    ∃ t, exec (.drw x y n) s = .next t ∧ Drawn (s.hitsWrapped x y n.val) s t ∧ OnlyChanges [.fb] [vf] s t

/-- Dxyn under DRAW_EDGE = `fault`: a DrawEdge fault when a set bit falls off the screen, else the draw of `clip` (the
spec's decision D3). -/
def Obligations.DrawEdgeFault : Prop :=
  ∀ (s : State) (x y : Reg) (n : Fin 16), s.params.drawEdge = .fault → s.index.toNat + n.val ≤ 4096 →
    ((∃ c r, s.spriteBit n.val c r = true ∧ (64 ≤ s.anchorX x + c ∨ 32 ≤ s.anchorY y + r)) →
      exec (.drw x y n) s =
        .fault (.drawEdge (s.pc - 2) (encode (.drw x y n)) (s.anchorX x) (s.anchorY y))) ∧
    ((∀ c r, s.spriteBit n.val c r = true → s.anchorX x + c < 64 ∧ s.anchorY y + r < 32) →
      ∃ t, exec (.drw x y n) s = .next t ∧ Drawn (s.hits x y n.val) s t ∧ OnlyChanges [.fb] [vf] s t)

/-- Dxyn whose sprite reaches past 0xFFF faults with MemoryRange, whatever DRAW_EDGE is and with n = 0 too (the spec's
decisions D5 and D15). -/
def Obligations.DrawRangeFault : Prop :=
  ∀ (s : State) (x y : Reg) (n : Fin 16), 4096 < s.index.toNat + n.val →
    exec (.drw x y n) s = .fault (.memoryRange (s.pc - 2) (encode (.drw x y n)) s.index.toNat n.val)

/-- Drawing the same sprite twice at the same place restores every pixel, and the second draw reports a collision exactly
when the first lit a pixel (95_test_vectors.md S8). Under every DRAW_EDGE. -/
def Obligations.DrawTwiceRestores : Prop :=
  ∀ (s t : State) (x y : Reg) (n : Fin 16), x ≠ vf → y ≠ vf → exec (.drw x y n) s = .next t →
    ∃ u, exec (.drw x y n) t = .next u ∧
      (∀ px < 64, ∀ py < 32, u.pixel px py = s.pixel px py) ∧
      (u.getV vf = 0 ∨ u.getV vf = 1) ∧
      (u.getV vf = 1 ↔ ∃ px < 64, ∃ py < 32, s.pixel px py = 0x00 ∧ t.pixel px py = 0xFF)

/-! ### Rules of the whole machine -/

/-- VF is written as a side effect by 8xy4 to 8xy7, 8xyE and Dxyn alone, each leaving 0 or 1 in it, 8xyE with x = 15
apart; every other instruction writes it, as any register, only as its named destination. What the two shifts leave in VF
when x = 15 is the spec's decision D18 (log entry 15). -/
def Obligations.RegisterWriters : Prop :=
  ∀ (i : Instr) (s t : State), exec i s = .next t →
    (∀ r, r ∉ destinations i → (writesFlag i = false ∨ r ≠ vf) → t.getV r = s.getV r) ∧
    (writesFlag i = true → i ≠ .shl vf → t.getV vf = 0 ∨ t.getV vf = 1)

/-- R116: I is written by Annn, Fx29 and Fx1E alone and read by Fx1E, Dxyn, Fx33, Fx55 and Fx65 alone. -/
def Obligations.IndexWritersAndReaders : Prop :=
  (∀ (i : Instr) (s t : State), exec i s = .next t →
    (∀ nnn, i ≠ .ldI nnn) → (∀ x, i ≠ .ldFont x) → (∀ x, i ≠ .addI x) → t.index = s.index) ∧
  (∀ (i : Instr) (s : State) (w : Word),
    (∀ x, i ≠ .addI x) → (∀ x y n, i ≠ .drw x y n) → (∀ x, i ≠ .ldBcd x) → (∀ x, i ≠ .store x) →
    (∀ x, i ≠ .load x) →
    SameUpTo (fun t => { t with index := 0 }) (exec i s) (exec i { s with index := w }))

/-- R117: a stack slot is written by 2nnn alone and read by 00EE alone, and every slot is 0 at construction. -/
def Obligations.StackWritersAndReaders : Prop :=
  (∀ (i : Instr) (s t : State), exec i s = .next t → (∀ nnn, i ≠ .call nnn) → t.stack = s.stack) ∧
  (∀ (i : Instr) (s : State) (slots : Vector Word 16), i ≠ .ret →
    SameUpTo (fun t => { t with stack := slots }) (exec i s) (exec i { s with stack := slots })) ∧
  (∀ (p : Params) (j : Fin 16), (State.construct p).stack[j.val] = 0)

/-- R121: the sound timer is 0 at construction, written by Fx18 and by the tick of every completed step, read by no
instruction, and seen through inspection. -/
def Obligations.SoundTimerUnread : Prop :=
  (∀ p : Params, (State.construct p).st = 0) ∧
  (∀ (i : Instr) (s t : State), exec i s = .next t → (∀ x, i ≠ .ldSt x) → t.st = s.st) ∧
  (∀ (i : Instr) (s t : State), s.Runs i → step s = .next t →
    t.st = tick (match i with | .ldSt x => s.getV x | _ => s.st)) ∧
  (∀ (i : Instr) (s : State) (b : Byte),
    SameUpTo (fun t => { t with st := 0 }) (exec i s) (exec i { s with st := b })) ∧
  (∀ s, (transact s .inspect).2 = .view s)

/-- R127: the frame buffer is a store apart from memory, written by 00E0 and Dxyn only, read by Dxyn only, and seen
through inspection. -/
def Obligations.FrameBufferWritersAndReaders : Prop :=
  (∀ (i : Instr) (s t : State), exec i s = .next t → i ≠ .cls → (∀ x y n, i ≠ .drw x y n) → t.fb = s.fb) ∧
  (∀ (i : Instr) (s t : State), exec i s = .next t → (i = .cls ∨ ∃ x y n, i = .drw x y n) → t.mem = s.mem) ∧
  (∀ (i : Instr) (s : State) (fb : Cells), (∀ x y n, i ≠ .drw x y n) →
    SameUpTo (fun t => { t with fb := [] }) (exec i s) (exec i { s with fb := fb })) ∧
  (∀ s, (transact s .inspect).2 = .view s)

/-- Memory is written by Fx33 and Fx55 alone, and read (besides the fetch) by Dxyn and Fx65 alone. -/
def Obligations.MemoryWritersAndReaders : Prop :=
  (∀ (i : Instr) (s t : State), exec i s = .next t → (∀ x, i ≠ .ldBcd x) → (∀ x, i ≠ .store x) → t.mem = s.mem) ∧
  (∀ (i : Instr) (s : State) (mem : Cells), (∀ x y n, i ≠ .drw x y n) → (∀ x, i ≠ .load x) →
    SameUpTo (fun t => { t with mem := [] }) (exec i s) (exec i { s with mem := mem }))

/-- Only Cxkk reads the random byte: every other instruction does the same whatever the host supplies (the random byte
is the spec's decision D10; how the model holds it is log entry 3). -/
def Obligations.RandomReadOnlyByRnd : Prop :=
  ∀ (i : Instr) (s : State) (r : Option Byte) (d : Nat), (∀ x kk, i ≠ .rnd x kk) →
    SameUpTo (fun t => { t with randIn := none, draws := 0 }) (exec i s) (exec i { s with randIn := r, draws := d })

/-- No instruction changes the key levels or the parameters, and a completed step leaves the block running (the
interface of the keys is the spec's decision D9, the parameters its D3, D4 and D12). -/
def Obligations.HostStateKeptByStep : Prop :=
  ∀ s t : State, step s = .next t →
    t.key = s.key ∧ t.params = s.params ∧ t.status = .running ∧ t.phase = .started

/-- Every step keeps the invariant: canonical memory and frame buffer, every pixel 0x00 or 0xFF, pc at most 0x10FE, every
stack slot at most 0x1000. -/
def Obligations.InvariantKeptByStep : Prop :=
  ∀ s t : State, s.Inv → step s = .next t → t.Inv

/-- The invariant holds after construction, whatever the parameters, and at reset. -/
def Obligations.InvariantAtConstruction : Prop :=
  (∀ p : Params, (State.construct p).Inv) ∧ State.reset.Inv

/-- Every state the host's transactions can reach meets the invariant: any parameters, any ROM loads, any key levels, any
random bytes, any number of steps. -/
def Obligations.ReachableStatesMeetInvariant : Prop :=
  ∀ (p : Params) (txs : List Transaction), (transactAll (State.construct p) txs).Inv

/-- With LOW_WRITE = `fault` no run ever changes a byte below 0x200, so the font table stays as constructed (the spec's
decision D4 keeps the document's invariant so; 90_conflicts.md C5). -/
def Obligations.LowMemoryNeverChanges : Prop :=
  ∀ (p : Params) (txs : List Transaction), p.lowWrite = .fault → (∀ q, .construct q ∉ txs) →
    ∀ a < 0x200, (transactAll (State.construct p) txs).memRead a = (State.construct p).memRead a

/-- A stored byte is seen by the next fetch: after Fx55 the opcode at the new pc is made of the stored registers wherever
it lies in the stored bytes, and of the old bytes elsewhere (the spec marks R242 as derived; D4 and D5 bound where the
store happens). -/
def Obligations.StoreSeenByNextFetch : Prop :=
  ∀ (s t : State) (x : Reg), s.Runs (.store x) → step s = .next t →
    t.opcodeAt = beWord
      (if h : s.index.toNat ≤ t.pc.toNat ∧ t.pc.toNat ≤ s.index.toNat + x.val then
        s.getV ⟨t.pc.toNat - s.index.toNat, by omega⟩ else s.memRead t.pc.toNat)
      (if h : s.index.toNat ≤ t.pc.toNat + 1 ∧ t.pc.toNat + 1 ≤ s.index.toNat + x.val then
        s.getV ⟨t.pc.toNat + 1 - s.index.toNat, by omega⟩ else s.memRead (t.pc.toNat + 1))
end

