-- ==== Sys2Proof/Machine/Assembler.lean ====
section
/-! DEFINITION. The assembler syntax of 30_encoding.md R340 and R341: one line, one instruction, one opcode. The block
reads only opcodes, so nothing else of the model rests on this file. -/

namespace Sys2Proof.Machine

/-- An operand as it is written (R340). -/
inductive AsmOperand where
  /-- `V0` to `VF`. -/
  | reg (x : Reg)
  /-- A number, in hexadecimal or decimal. -/
  | num (value : Nat)
  /-- `DT`. -/
  | dt
  /-- `ST`. -/
  | st
  /-- `K`. -/
  | k
  /-- `I`. -/
  | i
  /-- `F`. -/
  | f
  /-- `B`. -/
  | b
  /-- `[I]`. -/
  | atI
  deriving DecidableEq, Repr

/-- The nineteen mnemonics of the syntax column of R310. -/
inductive AsmMnemonic where
  | cls
  | ret
  | jp
  | call
  | se
  | sne
  | ld
  | add
  | or
  | and
  | xor
  | sub
  | shr
  | subn
  | shl
  | rnd
  | drw
  | skp
  | sknp
  deriving DecidableEq, Repr

/-- A line: the mnemonic and the operands in order (R340). -/
structure AsmLine where
  mnemonic : AsmMnemonic
  operands : List AsmOperand
  deriving DecidableEq, Repr

/-- The line of an instruction, the syntax column of R310. -/
def asmLine (instr : Instr) : AsmLine :=
  match instr with
  | .cls => ⟨.cls, []⟩
  | .ret => ⟨.ret, []⟩
  | .jp nnn => ⟨.jp, [.num nnn.toNat]⟩
  | .call nnn => ⟨.call, [.num nnn.toNat]⟩
  | .seByte x kk => ⟨.se, [.reg x, .num kk.toNat]⟩
  | .sneByte x kk => ⟨.sne, [.reg x, .num kk.toNat]⟩
  | .seReg x y => ⟨.se, [.reg x, .reg y]⟩
  | .ldByte x kk => ⟨.ld, [.reg x, .num kk.toNat]⟩
  | .addByte x kk => ⟨.add, [.reg x, .num kk.toNat]⟩
  | .ldReg x y => ⟨.ld, [.reg x, .reg y]⟩
  | .orReg x y => ⟨.or, [.reg x, .reg y]⟩
  | .andReg x y => ⟨.and, [.reg x, .reg y]⟩
  | .xorReg x y => ⟨.xor, [.reg x, .reg y]⟩
  | .addReg x y => ⟨.add, [.reg x, .reg y]⟩
  | .sub x y => ⟨.sub, [.reg x, .reg y]⟩
  | .shr x => ⟨.shr, [.reg x]⟩
  | .subn x y => ⟨.subn, [.reg x, .reg y]⟩
  | .shl x => ⟨.shl, [.reg x]⟩
  | .sneReg x y => ⟨.sne, [.reg x, .reg y]⟩
  | .ldI nnn => ⟨.ld, [.i, .num nnn.toNat]⟩
  | .jpV0 nnn => ⟨.jp, [.reg 0, .num nnn.toNat]⟩
  | .rnd x kk => ⟨.rnd, [.reg x, .num kk.toNat]⟩
  | .drw x y n => ⟨.drw, [.reg x, .reg y, .num n.val]⟩
  | .skp x => ⟨.skp, [.reg x]⟩
  | .sknp x => ⟨.sknp, [.reg x]⟩
  | .ldFromDt x => ⟨.ld, [.reg x, .dt]⟩
  | .ldKey x => ⟨.ld, [.reg x, .k]⟩
  | .ldDt x => ⟨.ld, [.dt, .reg x]⟩
  | .ldSt x => ⟨.ld, [.st, .reg x]⟩
  | .addI x => ⟨.add, [.i, .reg x]⟩
  | .ldFont x => ⟨.ld, [.f, .reg x]⟩
  | .ldBcd x => ⟨.ld, [.b, .reg x]⟩
  | .store x => ⟨.ld, [.atI, .reg x]⟩
  | .load x => ⟨.ld, [.reg x, .atI]⟩

/-- The spelling of a mnemonic. -/
def AsmMnemonic.text (m : AsmMnemonic) : String :=
  match m with
  | .cls => "CLS"
  | .ret => "RET"
  | .jp => "JP"
  | .call => "CALL"
  | .se => "SE"
  | .sne => "SNE"
  | .ld => "LD"
  | .add => "ADD"
  | .or => "OR"
  | .and => "AND"
  | .xor => "XOR"
  | .sub => "SUB"
  | .shr => "SHR"
  | .subn => "SUBN"
  | .shl => "SHL"
  | .rnd => "RND"
  | .drw => "DRW"
  | .skp => "SKP"
  | .sknp => "SKNP"

/-- The spelling of an operand (R340): a register's number is one upper-case hexadecimal digit, a number is decimal. -/
def AsmOperand.text (operand : AsmOperand) : String :=
  match operand with
  | .reg x => "V" ++ (["0", "1", "2", "3", "4", "5", "6", "7", "8", "9", "A", "B", "C", "D", "E", "F"].getD x.val "")
  | .num value => value.repr
  | .dt => "DT"
  | .st => "ST"
  | .k => "K"
  | .i => "I"
  | .f => "F"
  | .b => "B"
  | .atI => "[I]"

/-- The spelling of a line: the mnemonic, a space, the operands separated by a comma and a space (R340). -/
def AsmLine.text (line : AsmLine) : String :=
  match line.operands with
  | [] => line.mnemonic.text
  | operands => line.mnemonic.text ++ " " ++ String.intercalate ", " (operands.map AsmOperand.text)

/-- A number that fits the 12 bits of nnn. -/
def asmNnn (value : Nat) (mk : BitVec 12 → Instr) : Option Instr :=
  if value < 4096 then some (mk (BitVec.ofNat 12 value)) else none

/-- A number that fits the 8 bits of kk. -/
def asmKk (value : Nat) (mk : Byte → Instr) : Option Instr :=
  if value < 256 then some (mk (BitVec.ofNat 8 value)) else none

/-- A number that fits the 4 bits of n. -/
def asmN (value : Nat) (mk : Fin 16 → Instr) : Option Instr :=
  if h : value < 16 then some (mk ⟨value, h⟩) else none

/-- The instruction of a line: exactly one row of R310, or none (R341). -/
def assemble (line : AsmLine) : Option Instr :=
  match line.mnemonic, line.operands with
  | .cls, [] => some .cls
  | .ret, [] => some .ret
  | .jp, [.num v] => asmNnn v .jp
  | .jp, [.reg x, .num v] => if x = 0 then asmNnn v .jpV0 else none
  | .call, [.num v] => asmNnn v .call
  | .se, [.reg x, .num v] => asmKk v (.seByte x)
  | .se, [.reg x, .reg y] => some (.seReg x y)
  | .sne, [.reg x, .num v] => asmKk v (.sneByte x)
  | .sne, [.reg x, .reg y] => some (.sneReg x y)
  | .ld, [.reg x, .num v] => asmKk v (.ldByte x)
  | .ld, [.reg x, .reg y] => some (.ldReg x y)
  | .ld, [.reg x, .dt] => some (.ldFromDt x)
  | .ld, [.reg x, .k] => some (.ldKey x)
  | .ld, [.reg x, .atI] => some (.load x)
  | .ld, [.i, .num v] => asmNnn v .ldI
  | .ld, [.dt, .reg x] => some (.ldDt x)
  | .ld, [.st, .reg x] => some (.ldSt x)
  | .ld, [.f, .reg x] => some (.ldFont x)
  | .ld, [.b, .reg x] => some (.ldBcd x)
  | .ld, [.atI, .reg x] => some (.store x)
  | .add, [.reg x, .num v] => asmKk v (.addByte x)
  | .add, [.reg x, .reg y] => some (.addReg x y)
  | .add, [.i, .reg x] => some (.addI x)
  | .or, [.reg x, .reg y] => some (.orReg x y)
  | .and, [.reg x, .reg y] => some (.andReg x y)
  | .xor, [.reg x, .reg y] => some (.xorReg x y)
  | .sub, [.reg x, .reg y] => some (.sub x y)
  | .subn, [.reg x, .reg y] => some (.subn x y)
  | .shr, [.reg x] => some (.shr x)
  | .shl, [.reg x] => some (.shl x)
  | .rnd, [.reg x, .num v] => asmKk v (.rnd x)
  | .drw, [.reg x, .reg y, .num v] => asmN v (.drw x y)
  | .skp, [.reg x] => some (.skp x)
  | .sknp, [.reg x] => some (.sknp x)
  | _, _ => none

end Sys2Proof.Machine
end

