-- ==== Sys2Proof/Laws/Assembler.lean ====
section
/-! SUPPORT. The assembler reads every line of an instruction back, and no two instructions share a line. -/

namespace Sys2Proof.Machine

theorem asmNnn_toNat (nnn : BitVec 12) (mk : BitVec 12 → Instr) : asmNnn nnn.toNat mk = some (mk nnn) := by
  simp [asmNnn, nnn.isLt]

theorem asmKk_toNat (kk : Byte) (mk : Byte → Instr) : asmKk kk.toNat mk = some (mk kk) := by
  simp [asmKk, kk.isLt]

theorem asmN_val (n : Fin 16) (mk : Fin 16 → Instr) : asmN n.val mk = some (mk n) := by
  simp [asmN]

/-- Each line is exactly one row of the map (30_encoding.md R341). -/
theorem assemble_asm (i : Instr) : assemble (asmLine i) = some i := by
  cases i <;> simp [assemble, asmLine, asmNnn_toNat, asmKk_toNat, asmN_val]

theorem asm_injective {i j : Instr} (h : asmLine i = asmLine j) : i = j := by
  have hi := assemble_asm i
  rw [h, assemble_asm j] at hi
  exact (Option.some.inj hi).symm

end Sys2Proof.Machine
end

