-- ==== Sys2Proof/Laws/Decode.lean ====
section
/-! SUPPORT. Opcodes as numbers: the fields of a word and the words the encoder builds, by their value. -/

namespace Sys2Proof

theorem toNat_append_eq {m n : Nat} (a : BitVec m) (b : BitVec n) :
    (a ++ b).toNat = a.toNat * 2 ^ n + b.toNat := by
  rw [BitVec.toNat_append, ← Nat.shiftLeft_add_eq_or_of_lt b.isLt, Nat.shiftLeft_eq]

/-! ### Fields by value (30_encoding.md R301) -/

theorem toNat_fieldOp (w : Word) : (fieldOp w).toNat = w.toNat / 4096 := by
  have := w.isLt
  simp [fieldOp, Nat.shiftRight_eq_div_pow]
  omega

theorem val_fieldX (w : Word) : (fieldX w).val = w.toNat / 256 % 16 := by
  simp [fieldX, Nat.shiftRight_eq_div_pow]

theorem val_fieldY (w : Word) : (fieldY w).val = w.toNat / 16 % 16 := by
  simp [fieldY, Nat.shiftRight_eq_div_pow]

theorem val_fieldN (w : Word) : (fieldN w).val = w.toNat % 16 := by
  simp [fieldN]

theorem toNat_fieldKk (w : Word) : (fieldKk w).toNat = w.toNat % 256 := by
  simp [fieldKk]

theorem toNat_fieldNnn (w : Word) : (fieldNnn w).toNat = w.toNat % 4096 := by
  simp [fieldNnn]

/-! ### Words by value -/

theorem toNat_wordNnn (op : BitVec 4) (nnn : BitVec 12) :
    (wordNnn op nnn).toNat = op.toNat * 4096 + nnn.toNat :=
  toNat_append_eq op nnn

theorem toNat_wordXkk (op : BitVec 4) (x : Reg) (kk : Byte) :
    (wordXkk op x kk).toNat = op.toNat * 4096 + x.val * 256 + kk.toNat := by
  have h : (wordXkk op x kk).toNat = (op ++ (BitVec.ofFin x : BitVec 4) ++ kk).toNat := rfl
  rw [h, toNat_append_eq, toNat_append_eq]
  simp
  omega

theorem toNat_wordXyn (op : BitVec 4) (x y n : Fin 16) :
    (wordXyn op x y n).toNat = op.toNat * 4096 + x.val * 256 + y.val * 16 + n.val := by
  have h : (wordXyn op x y n).toNat =
    (op ++ (BitVec.ofFin x : BitVec 4) ++ (BitVec.ofFin y : BitVec 4) ++ (BitVec.ofFin n : BitVec 4)).toNat := rfl
  rw [h, toNat_append_eq, toNat_append_eq, toNat_append_eq]
  simp
  omega

theorem toNat_beWord (hi lo : Byte) : (beWord hi lo).toNat = hi.toNat * 256 + lo.toNat :=
  toNat_append_eq hi lo

theorem toNat_hiByte (w : Word) : (hiByte w).toNat = w.toNat / 256 := by
  have := w.isLt
  simp [hiByte, Nat.shiftRight_eq_div_pow]
  omega

theorem toNat_loByte (w : Word) : (loByte w).toNat = w.toNat % 256 := by
  simp [loByte]

/-- A word is its high byte before its low byte. -/
@[simp] theorem beWord_hiByte_loByte (w : Word) : beWord (hiByte w) (loByte w) = w := by
  apply BitVec.eq_of_toNat_eq
  rw [toNat_beWord, toNat_hiByte, toNat_loByte]
  omega

/-! ### The fields of the words the encoder builds -/

section
variable (op : BitVec 4) (nnn : BitVec 12) (x y n : Fin 16) (kk : Byte)

@[simp] theorem fieldOp_wordNnn : fieldOp (wordNnn op nnn) = op := by
  apply BitVec.eq_of_toNat_eq
  have := nnn.isLt
  rw [toNat_fieldOp, toNat_wordNnn]
  omega

@[simp] theorem fieldNnn_wordNnn : fieldNnn (wordNnn op nnn) = nnn := by
  apply BitVec.eq_of_toNat_eq
  have := nnn.isLt
  rw [toNat_fieldNnn, toNat_wordNnn]
  omega

@[simp] theorem fieldOp_wordXkk : fieldOp (wordXkk op x kk) = op := by
  apply BitVec.eq_of_toNat_eq
  have := kk.isLt
  have := x.isLt
  rw [toNat_fieldOp, toNat_wordXkk]
  omega

@[simp] theorem fieldX_wordXkk : fieldX (wordXkk op x kk) = x := by
  apply Fin.ext
  have := kk.isLt
  have := x.isLt
  rw [val_fieldX, toNat_wordXkk]
  omega

@[simp] theorem fieldKk_wordXkk : fieldKk (wordXkk op x kk) = kk := by
  apply BitVec.eq_of_toNat_eq
  have := kk.isLt
  rw [toNat_fieldKk, toNat_wordXkk]
  omega

@[simp] theorem fieldOp_wordXyn : fieldOp (wordXyn op x y n) = op := by
  apply BitVec.eq_of_toNat_eq
  rw [toNat_fieldOp, toNat_wordXyn]
  omega

@[simp] theorem fieldX_wordXyn : fieldX (wordXyn op x y n) = x := by
  apply Fin.ext
  rw [val_fieldX, toNat_wordXyn]
  omega

@[simp] theorem fieldY_wordXyn : fieldY (wordXyn op x y n) = y := by
  apply Fin.ext
  rw [val_fieldY, toNat_wordXyn]
  omega

@[simp] theorem fieldN_wordXyn : fieldN (wordXyn op x y n) = n := by
  apply Fin.ext
  rw [val_fieldN, toNat_wordXyn]
  omega

end

/-! ### A word is its fields -/

theorem wordNnn_fields (w : Word) : wordNnn (fieldOp w) (fieldNnn w) = w := by
  apply BitVec.eq_of_toNat_eq
  rw [toNat_wordNnn, toNat_fieldOp, toNat_fieldNnn]
  omega

theorem wordXkk_fields (w : Word) : wordXkk (fieldOp w) (fieldX w) (fieldKk w) = w := by
  apply BitVec.eq_of_toNat_eq
  rw [toNat_wordXkk, toNat_fieldOp, val_fieldX, toNat_fieldKk]
  omega

theorem wordXyn_fields (w : Word) : wordXyn (fieldOp w) (fieldX w) (fieldY w) (fieldN w) = w := by
  apply BitVec.eq_of_toNat_eq
  rw [toNat_wordXyn, toNat_fieldOp, val_fieldX, val_fieldY, val_fieldN]
  omega

/-! ### Masked words -/

theorem fieldOp_and (w m : Word) : fieldOp (w &&& m) = fieldOp w &&& fieldOp m := by
  ext i hi
  simp [fieldOp]

theorem fieldN_and (w m : Word) :
    (BitVec.ofFin (fieldN (w &&& m)) : BitVec 4) = BitVec.ofFin (fieldN w) &&& BitVec.ofFin (fieldN m) := by
  show (w &&& m).extractLsb' 0 4 = w.extractLsb' 0 4 &&& m.extractLsb' 0 4
  ext i hi
  simp

theorem fieldKk_and (w m : Word) : fieldKk (w &&& m) = fieldKk w &&& fieldKk m := by
  ext i hi
  simp [fieldKk]

/-- An opcode that matches a row with the major opcode fixed has the row's major opcode. -/
theorem fieldOp_of_match {w pat mask : Word} (h : w &&& mask = pat) (hm : fieldOp mask = 0xF) :
    fieldOp w = fieldOp pat := by
  have h1 := fieldOp_and w mask
  rw [h, hm] at h1
  rw [h1]
  ext i hi
  interval_cases i <;> simp

/-- An opcode that matches a row with n fixed has the row's n. -/
theorem fieldN_of_match {w pat mask : Word} (h : w &&& mask = pat) (hm : fieldN mask = 0xF) :
    fieldN w = fieldN pat := by
  have h1 := fieldN_and w mask
  rw [h, hm] at h1
  have h2 : (BitVec.ofFin (fieldN pat) : BitVec 4) = BitVec.ofFin (fieldN w) := by
    rw [h1]
    generalize (BitVec.ofFin (fieldN w) : BitVec 4) = b
    revert b
    decide
  exact (congrArg BitVec.toFin h2).symm

/-- An opcode that matches a row with kk fixed has the row's kk. -/
theorem fieldKk_of_match {w pat mask : Word} (h : w &&& mask = pat) (hm : fieldKk mask = 0xFF) :
    fieldKk w = fieldKk pat := by
  have h1 := fieldKk_and w mask
  rw [h, hm] at h1
  rw [h1]
  ext i hi
  interval_cases i <;> simp

theorem fieldX_and (w m : Word) :
    (BitVec.ofFin (fieldX (w &&& m)) : BitVec 4) = BitVec.ofFin (fieldX w) &&& BitVec.ofFin (fieldX m) := by
  show (w &&& m).extractLsb' 8 4 = w.extractLsb' 8 4 &&& m.extractLsb' 8 4
  ext i hi
  simp

theorem fieldY_and (w m : Word) :
    (BitVec.ofFin (fieldY (w &&& m)) : BitVec 4) = BitVec.ofFin (fieldY w) &&& BitVec.ofFin (fieldY m) := by
  show (w &&& m).extractLsb' 4 4 = w.extractLsb' 4 4 &&& m.extractLsb' 4 4
  ext i hi
  simp

/-- A masked word is a pattern when its four nibbles are. -/
theorem and_eq_of_nibbles {w m p : Word} (hop : fieldOp w &&& fieldOp m = fieldOp p)
    (hx : (BitVec.ofFin (fieldX w) : BitVec 4) &&& BitVec.ofFin (fieldX m) = BitVec.ofFin (fieldX p))
    (hy : (BitVec.ofFin (fieldY w) : BitVec 4) &&& BitVec.ofFin (fieldY m) = BitVec.ofFin (fieldY p))
    (hn : (BitVec.ofFin (fieldN w) : BitVec 4) &&& BitVec.ofFin (fieldN m) = BitVec.ofFin (fieldN p)) :
    w &&& m = p := by
  have ex := congrArg BitVec.toFin ((fieldX_and w m).trans hx)
  have ey := congrArg BitVec.toFin ((fieldY_and w m).trans hy)
  have en := congrArg BitVec.toFin ((fieldN_and w m).trans hn)
  rw [← wordXyn_fields (w &&& m), ← wordXyn_fields p, (fieldOp_and w m).trans hop]
  exact congrArg₂ (fun a b => wordXyn (fieldOp p) a b (fieldN (w &&& m))) ex ey |>.trans
    (congrArg (wordXyn (fieldOp p) (fieldX p) (fieldY p)) en)

@[simp] theorem fieldY_wordXkk (op : BitVec 4) (x : Reg) (kk : Byte) :
    fieldY (wordXkk op x kk) = (kk.extractLsb' 4 4).toFin := by
  apply Fin.ext
  have := kk.isLt
  rw [val_fieldY, toNat_wordXkk]
  simp [Nat.shiftRight_eq_div_pow]
  omega

@[simp] theorem fieldN_wordXkk (op : BitVec 4) (x : Reg) (kk : Byte) :
    fieldN (wordXkk op x kk) = (kk.extractLsb' 0 4).toFin := by
  apply Fin.ext
  have := kk.isLt
  rw [val_fieldN, toNat_wordXkk]
  simp
  omega

/-- A nibble under a mask of ones is itself. -/
theorem nibble_and_ones (b : BitVec 4) : b &&& 0xF = b := by
  revert b
  decide

/-- A nibble under a mask of zeros is 0. -/
theorem nibble_and_zero (b : BitVec 4) : b &&& 0 = 0 := by
  revert b
  decide

/-! ### What decodes -/

theorem fieldOp_eq_ofNat {o : Word} {k : Nat} (h : (fieldOp o).toNat = k) : fieldOp o = BitVec.ofNat 4 k := by
  simp [← h]

theorem fieldKk_eq_ofNat {o : Word} {k : Nat} (h : (fieldKk o).toNat = k) : fieldKk o = BitVec.ofNat 8 k := by
  simp [← h]

/-- What decodes is what its instruction encodes to, but for the y field the shifts ignore (30_encoding.md R304). -/
theorem encode_of_decode {o : Word} {i : Instr} (h : decode o = some i) :
    (encode i = o ∨ ∃ x, (i = .shr x ∨ i = .shl x)) := by
  have h1 := wordNnn_fields o
  have h2 := wordXkk_fields o
  have h3 := wordXyn_fields o
  generalize hop : (fieldOp o).toNat = op at *
  have hlt : op < 16 := by rw [← hop]; exact (fieldOp o).isLt
  rw [fieldOp_eq_ofNat hop] at h1 h2 h3
  interval_cases op <;> simp [decode, hop] at h
  · split_ifs at h with ha hb
    · cases h; left; exact ha.symm
    · cases h; left; exact hb.symm
  · subst h; exact .inl h1
  · subst h; exact .inl h1
  · subst h; exact .inl h2
  · subst h; exact .inl h2
  · obtain ⟨h, rfl⟩ := h; left; rw [h] at h3; exact h3
  · subst h; exact .inl h2
  · subst h; exact .inl h2
  · unfold decode8 at h
    generalize hn : (fieldN o).val = n at h
    have hn' : fieldN o = Fin.ofNat 16 n := by subst hn; simp
    split at h
    all_goals (rw [hn'] at h3; cases h)
    all_goals first | exact .inl h3 | exact .inr ⟨_, .inl rfl⟩ | exact .inr ⟨_, .inr rfl⟩
  · obtain ⟨h, rfl⟩ := h; left; rw [h] at h3; exact h3
  · subst h; exact .inl h1
  · subst h; exact .inl h1
  · subst h; exact .inl h2
  · subst h; exact .inl h3
  · unfold decodeE at h
    split at h
    all_goals (cases h)
    all_goals (rename_i hn; rw [fieldKk_eq_ofNat hn] at h2; exact .inl h2)
  · unfold decodeF at h
    split at h
    all_goals (cases h)
    all_goals (rename_i hn; rw [fieldKk_eq_ofNat hn] at h2; exact .inl h2)

end Sys2Proof
end

