-- ==== Sys2Proof/Laws/State.lean ====
section
/-! SUPPORT. Each field after each update: one lemma a field and update, so that no proof unfolds a record update. -/

namespace Sys2Proof.Machine

variable (s : State)

/-! ### memWrite -/

@[simp] theorem State.memWrite_mem (a : Nat) (b : Byte) : (s.memWrite a b).mem = Cells.write (Memory.unlisted s.params.font) s.mem a b := rfl
@[simp] theorem State.memWrite_v (a : Nat) (b : Byte) : (s.memWrite a b).v = s.v := rfl
@[simp] theorem State.memWrite_pc (a : Nat) (b : Byte) : (s.memWrite a b).pc = s.pc := rfl
@[simp] theorem State.memWrite_index (a : Nat) (b : Byte) : (s.memWrite a b).index = s.index := rfl
@[simp] theorem State.memWrite_stack (a : Nat) (b : Byte) : (s.memWrite a b).stack = s.stack := rfl
@[simp] theorem State.memWrite_sp (a : Nat) (b : Byte) : (s.memWrite a b).sp = s.sp := rfl
@[simp] theorem State.memWrite_dt (a : Nat) (b : Byte) : (s.memWrite a b).dt = s.dt := rfl
@[simp] theorem State.memWrite_st (a : Nat) (b : Byte) : (s.memWrite a b).st = s.st := rfl
@[simp] theorem State.memWrite_key (a : Nat) (b : Byte) : (s.memWrite a b).key = s.key := rfl
@[simp] theorem State.memWrite_fb (a : Nat) (b : Byte) : (s.memWrite a b).fb = s.fb := rfl
@[simp] theorem State.memWrite_status (a : Nat) (b : Byte) : (s.memWrite a b).status = s.status := rfl
@[simp] theorem State.memWrite_phase (a : Nat) (b : Byte) : (s.memWrite a b).phase = s.phase := rfl
@[simp] theorem State.memWrite_params (a : Nat) (b : Byte) : (s.memWrite a b).params = s.params := rfl
@[simp] theorem State.memWrite_randIn (a : Nat) (b : Byte) : (s.memWrite a b).randIn = s.randIn := rfl
@[simp] theorem State.memWrite_draws (a : Nat) (b : Byte) : (s.memWrite a b).draws = s.draws := rfl

/-! ### setV -/

@[simp] theorem State.setV_mem (x : Reg) (b : Byte) : (s.setV x b).mem = s.mem := rfl
@[simp] theorem State.setV_pc (x : Reg) (b : Byte) : (s.setV x b).pc = s.pc := rfl
@[simp] theorem State.setV_index (x : Reg) (b : Byte) : (s.setV x b).index = s.index := rfl
@[simp] theorem State.setV_stack (x : Reg) (b : Byte) : (s.setV x b).stack = s.stack := rfl
@[simp] theorem State.setV_sp (x : Reg) (b : Byte) : (s.setV x b).sp = s.sp := rfl
@[simp] theorem State.setV_dt (x : Reg) (b : Byte) : (s.setV x b).dt = s.dt := rfl
@[simp] theorem State.setV_st (x : Reg) (b : Byte) : (s.setV x b).st = s.st := rfl
@[simp] theorem State.setV_key (x : Reg) (b : Byte) : (s.setV x b).key = s.key := rfl
@[simp] theorem State.setV_fb (x : Reg) (b : Byte) : (s.setV x b).fb = s.fb := rfl
@[simp] theorem State.setV_status (x : Reg) (b : Byte) : (s.setV x b).status = s.status := rfl
@[simp] theorem State.setV_phase (x : Reg) (b : Byte) : (s.setV x b).phase = s.phase := rfl
@[simp] theorem State.setV_params (x : Reg) (b : Byte) : (s.setV x b).params = s.params := rfl
@[simp] theorem State.setV_randIn (x : Reg) (b : Byte) : (s.setV x b).randIn = s.randIn := rfl
@[simp] theorem State.setV_draws (x : Reg) (b : Byte) : (s.setV x b).draws = s.draws := rfl

/-! ### setPc -/

@[simp] theorem State.setPc_mem (w : Word) : (s.setPc w).mem = s.mem := rfl
@[simp] theorem State.setPc_v (w : Word) : (s.setPc w).v = s.v := rfl
@[simp] theorem State.setPc_pc (w : Word) : (s.setPc w).pc = w := rfl
@[simp] theorem State.setPc_index (w : Word) : (s.setPc w).index = s.index := rfl
@[simp] theorem State.setPc_stack (w : Word) : (s.setPc w).stack = s.stack := rfl
@[simp] theorem State.setPc_sp (w : Word) : (s.setPc w).sp = s.sp := rfl
@[simp] theorem State.setPc_dt (w : Word) : (s.setPc w).dt = s.dt := rfl
@[simp] theorem State.setPc_st (w : Word) : (s.setPc w).st = s.st := rfl
@[simp] theorem State.setPc_key (w : Word) : (s.setPc w).key = s.key := rfl
@[simp] theorem State.setPc_fb (w : Word) : (s.setPc w).fb = s.fb := rfl
@[simp] theorem State.setPc_status (w : Word) : (s.setPc w).status = s.status := rfl
@[simp] theorem State.setPc_phase (w : Word) : (s.setPc w).phase = s.phase := rfl
@[simp] theorem State.setPc_params (w : Word) : (s.setPc w).params = s.params := rfl
@[simp] theorem State.setPc_randIn (w : Word) : (s.setPc w).randIn = s.randIn := rfl
@[simp] theorem State.setPc_draws (w : Word) : (s.setPc w).draws = s.draws := rfl

/-! ### setIndex -/

@[simp] theorem State.setIndex_mem (w : Word) : (s.setIndex w).mem = s.mem := rfl
@[simp] theorem State.setIndex_v (w : Word) : (s.setIndex w).v = s.v := rfl
@[simp] theorem State.setIndex_pc (w : Word) : (s.setIndex w).pc = s.pc := rfl
@[simp] theorem State.setIndex_index (w : Word) : (s.setIndex w).index = w := rfl
@[simp] theorem State.setIndex_stack (w : Word) : (s.setIndex w).stack = s.stack := rfl
@[simp] theorem State.setIndex_sp (w : Word) : (s.setIndex w).sp = s.sp := rfl
@[simp] theorem State.setIndex_dt (w : Word) : (s.setIndex w).dt = s.dt := rfl
@[simp] theorem State.setIndex_st (w : Word) : (s.setIndex w).st = s.st := rfl
@[simp] theorem State.setIndex_key (w : Word) : (s.setIndex w).key = s.key := rfl
@[simp] theorem State.setIndex_fb (w : Word) : (s.setIndex w).fb = s.fb := rfl
@[simp] theorem State.setIndex_status (w : Word) : (s.setIndex w).status = s.status := rfl
@[simp] theorem State.setIndex_phase (w : Word) : (s.setIndex w).phase = s.phase := rfl
@[simp] theorem State.setIndex_params (w : Word) : (s.setIndex w).params = s.params := rfl
@[simp] theorem State.setIndex_randIn (w : Word) : (s.setIndex w).randIn = s.randIn := rfl
@[simp] theorem State.setIndex_draws (w : Word) : (s.setIndex w).draws = s.draws := rfl

/-! ### setDt -/

@[simp] theorem State.setDt_mem (b : Byte) : (s.setDt b).mem = s.mem := rfl
@[simp] theorem State.setDt_v (b : Byte) : (s.setDt b).v = s.v := rfl
@[simp] theorem State.setDt_pc (b : Byte) : (s.setDt b).pc = s.pc := rfl
@[simp] theorem State.setDt_index (b : Byte) : (s.setDt b).index = s.index := rfl
@[simp] theorem State.setDt_stack (b : Byte) : (s.setDt b).stack = s.stack := rfl
@[simp] theorem State.setDt_sp (b : Byte) : (s.setDt b).sp = s.sp := rfl
@[simp] theorem State.setDt_dt (b : Byte) : (s.setDt b).dt = b := rfl
@[simp] theorem State.setDt_st (b : Byte) : (s.setDt b).st = s.st := rfl
@[simp] theorem State.setDt_key (b : Byte) : (s.setDt b).key = s.key := rfl
@[simp] theorem State.setDt_fb (b : Byte) : (s.setDt b).fb = s.fb := rfl
@[simp] theorem State.setDt_status (b : Byte) : (s.setDt b).status = s.status := rfl
@[simp] theorem State.setDt_phase (b : Byte) : (s.setDt b).phase = s.phase := rfl
@[simp] theorem State.setDt_params (b : Byte) : (s.setDt b).params = s.params := rfl
@[simp] theorem State.setDt_randIn (b : Byte) : (s.setDt b).randIn = s.randIn := rfl
@[simp] theorem State.setDt_draws (b : Byte) : (s.setDt b).draws = s.draws := rfl

/-! ### setSt -/

@[simp] theorem State.setSt_mem (b : Byte) : (s.setSt b).mem = s.mem := rfl
@[simp] theorem State.setSt_v (b : Byte) : (s.setSt b).v = s.v := rfl
@[simp] theorem State.setSt_pc (b : Byte) : (s.setSt b).pc = s.pc := rfl
@[simp] theorem State.setSt_index (b : Byte) : (s.setSt b).index = s.index := rfl
@[simp] theorem State.setSt_stack (b : Byte) : (s.setSt b).stack = s.stack := rfl
@[simp] theorem State.setSt_sp (b : Byte) : (s.setSt b).sp = s.sp := rfl
@[simp] theorem State.setSt_dt (b : Byte) : (s.setSt b).dt = s.dt := rfl
@[simp] theorem State.setSt_st (b : Byte) : (s.setSt b).st = b := rfl
@[simp] theorem State.setSt_key (b : Byte) : (s.setSt b).key = s.key := rfl
@[simp] theorem State.setSt_fb (b : Byte) : (s.setSt b).fb = s.fb := rfl
@[simp] theorem State.setSt_status (b : Byte) : (s.setSt b).status = s.status := rfl
@[simp] theorem State.setSt_phase (b : Byte) : (s.setSt b).phase = s.phase := rfl
@[simp] theorem State.setSt_params (b : Byte) : (s.setSt b).params = s.params := rfl
@[simp] theorem State.setSt_randIn (b : Byte) : (s.setSt b).randIn = s.randIn := rfl
@[simp] theorem State.setSt_draws (b : Byte) : (s.setSt b).draws = s.draws := rfl

/-! ### setFb -/

@[simp] theorem State.setFb_mem (cells : Cells) : (s.setFb cells).mem = s.mem := rfl
@[simp] theorem State.setFb_v (cells : Cells) : (s.setFb cells).v = s.v := rfl
@[simp] theorem State.setFb_pc (cells : Cells) : (s.setFb cells).pc = s.pc := rfl
@[simp] theorem State.setFb_index (cells : Cells) : (s.setFb cells).index = s.index := rfl
@[simp] theorem State.setFb_stack (cells : Cells) : (s.setFb cells).stack = s.stack := rfl
@[simp] theorem State.setFb_sp (cells : Cells) : (s.setFb cells).sp = s.sp := rfl
@[simp] theorem State.setFb_dt (cells : Cells) : (s.setFb cells).dt = s.dt := rfl
@[simp] theorem State.setFb_st (cells : Cells) : (s.setFb cells).st = s.st := rfl
@[simp] theorem State.setFb_key (cells : Cells) : (s.setFb cells).key = s.key := rfl
@[simp] theorem State.setFb_fb (cells : Cells) : (s.setFb cells).fb = cells := rfl
@[simp] theorem State.setFb_status (cells : Cells) : (s.setFb cells).status = s.status := rfl
@[simp] theorem State.setFb_phase (cells : Cells) : (s.setFb cells).phase = s.phase := rfl
@[simp] theorem State.setFb_params (cells : Cells) : (s.setFb cells).params = s.params := rfl
@[simp] theorem State.setFb_randIn (cells : Cells) : (s.setFb cells).randIn = s.randIn := rfl
@[simp] theorem State.setFb_draws (cells : Cells) : (s.setFb cells).draws = s.draws := rfl

/-! ### setKey -/

@[simp] theorem State.setKey_mem (k : Fin 16) (down : Bool) : (s.setKey k down).mem = s.mem := rfl
@[simp] theorem State.setKey_v (k : Fin 16) (down : Bool) : (s.setKey k down).v = s.v := rfl
@[simp] theorem State.setKey_pc (k : Fin 16) (down : Bool) : (s.setKey k down).pc = s.pc := rfl
@[simp] theorem State.setKey_index (k : Fin 16) (down : Bool) : (s.setKey k down).index = s.index := rfl
@[simp] theorem State.setKey_stack (k : Fin 16) (down : Bool) : (s.setKey k down).stack = s.stack := rfl
@[simp] theorem State.setKey_sp (k : Fin 16) (down : Bool) : (s.setKey k down).sp = s.sp := rfl
@[simp] theorem State.setKey_dt (k : Fin 16) (down : Bool) : (s.setKey k down).dt = s.dt := rfl
@[simp] theorem State.setKey_st (k : Fin 16) (down : Bool) : (s.setKey k down).st = s.st := rfl
@[simp] theorem State.setKey_key (k : Fin 16) (down : Bool) : (s.setKey k down).key = s.key.set k.val down := rfl
@[simp] theorem State.setKey_fb (k : Fin 16) (down : Bool) : (s.setKey k down).fb = s.fb := rfl
@[simp] theorem State.setKey_status (k : Fin 16) (down : Bool) : (s.setKey k down).status = s.status := rfl
@[simp] theorem State.setKey_phase (k : Fin 16) (down : Bool) : (s.setKey k down).phase = s.phase := rfl
@[simp] theorem State.setKey_params (k : Fin 16) (down : Bool) : (s.setKey k down).params = s.params := rfl
@[simp] theorem State.setKey_randIn (k : Fin 16) (down : Bool) : (s.setKey k down).randIn = s.randIn := rfl
@[simp] theorem State.setKey_draws (k : Fin 16) (down : Bool) : (s.setKey k down).draws = s.draws := rfl

/-! ### enterFaulted -/

@[simp] theorem State.enterFaulted_mem (f : Fault) : (s.enterFaulted f).mem = s.mem := rfl
@[simp] theorem State.enterFaulted_v (f : Fault) : (s.enterFaulted f).v = s.v := rfl
@[simp] theorem State.enterFaulted_pc (f : Fault) : (s.enterFaulted f).pc = s.pc := rfl
@[simp] theorem State.enterFaulted_index (f : Fault) : (s.enterFaulted f).index = s.index := rfl
@[simp] theorem State.enterFaulted_stack (f : Fault) : (s.enterFaulted f).stack = s.stack := rfl
@[simp] theorem State.enterFaulted_sp (f : Fault) : (s.enterFaulted f).sp = s.sp := rfl
@[simp] theorem State.enterFaulted_dt (f : Fault) : (s.enterFaulted f).dt = s.dt := rfl
@[simp] theorem State.enterFaulted_st (f : Fault) : (s.enterFaulted f).st = s.st := rfl
@[simp] theorem State.enterFaulted_key (f : Fault) : (s.enterFaulted f).key = s.key := rfl
@[simp] theorem State.enterFaulted_fb (f : Fault) : (s.enterFaulted f).fb = s.fb := rfl
@[simp] theorem State.enterFaulted_status (f : Fault) : (s.enterFaulted f).status = .faulted f := rfl
@[simp] theorem State.enterFaulted_phase (f : Fault) : (s.enterFaulted f).phase = s.phase := rfl
@[simp] theorem State.enterFaulted_params (f : Fault) : (s.enterFaulted f).params = s.params := rfl
@[simp] theorem State.enterFaulted_randIn (f : Fault) : (s.enterFaulted f).randIn = s.randIn := rfl
@[simp] theorem State.enterFaulted_draws (f : Fault) : (s.enterFaulted f).draws = s.draws := rfl

/-! ### advance -/

@[simp] theorem State.advance_mem : (s.advance).mem = s.mem := rfl
@[simp] theorem State.advance_v : (s.advance).v = s.v := rfl
@[simp] theorem State.advance_pc : (s.advance).pc = s.pc + 2 := rfl
@[simp] theorem State.advance_index : (s.advance).index = s.index := rfl
@[simp] theorem State.advance_stack : (s.advance).stack = s.stack := rfl
@[simp] theorem State.advance_sp : (s.advance).sp = s.sp := rfl
@[simp] theorem State.advance_dt : (s.advance).dt = s.dt := rfl
@[simp] theorem State.advance_st : (s.advance).st = s.st := rfl
@[simp] theorem State.advance_key : (s.advance).key = s.key := rfl
@[simp] theorem State.advance_fb : (s.advance).fb = s.fb := rfl
@[simp] theorem State.advance_status : (s.advance).status = s.status := rfl
@[simp] theorem State.advance_phase : (s.advance).phase = s.phase := rfl
@[simp] theorem State.advance_params : (s.advance).params = s.params := rfl
@[simp] theorem State.advance_randIn : (s.advance).randIn = s.randIn := rfl
@[simp] theorem State.advance_draws : (s.advance).draws = s.draws := rfl

/-! ### endStep -/

@[simp] theorem State.endStep_mem : (s.endStep).mem = s.mem := rfl
@[simp] theorem State.endStep_v : (s.endStep).v = s.v := rfl
@[simp] theorem State.endStep_pc : (s.endStep).pc = s.pc := rfl
@[simp] theorem State.endStep_index : (s.endStep).index = s.index := rfl
@[simp] theorem State.endStep_stack : (s.endStep).stack = s.stack := rfl
@[simp] theorem State.endStep_sp : (s.endStep).sp = s.sp := rfl
@[simp] theorem State.endStep_dt : (s.endStep).dt = tick s.dt := rfl
@[simp] theorem State.endStep_st : (s.endStep).st = tick s.st := rfl
@[simp] theorem State.endStep_key : (s.endStep).key = s.key := rfl
@[simp] theorem State.endStep_fb : (s.endStep).fb = s.fb := rfl
@[simp] theorem State.endStep_status : (s.endStep).status = s.status := rfl
@[simp] theorem State.endStep_phase : (s.endStep).phase = .started := rfl
@[simp] theorem State.endStep_params : (s.endStep).params = s.params := rfl
@[simp] theorem State.endStep_randIn : (s.endStep).randIn = none := rfl
@[simp] theorem State.endStep_draws : (s.endStep).draws = s.draws + 1 := rfl

/-! ### Updates of one kind and reads of another -/

@[simp] theorem State.memWrite_getV (a : Nat) (b : Byte) (r : Reg) : (s.memWrite a b).getV r = s.getV r := rfl
@[simp] theorem State.memWrite_pixel (a : Nat) (b : Byte) (px py : Nat) : (s.memWrite a b).pixel px py = s.pixel px py := rfl
@[simp] theorem State.setV_memRead (x : Reg) (b : Byte) (p : Nat) : (s.setV x b).memRead p = s.memRead p := rfl
@[simp] theorem State.setV_pixel (x : Reg) (b : Byte) (px py : Nat) : (s.setV x b).pixel px py = s.pixel px py := rfl
@[simp] theorem State.setPc_getV (w : Word) (r : Reg) : (s.setPc w).getV r = s.getV r := rfl
@[simp] theorem State.setPc_memRead (w : Word) (p : Nat) : (s.setPc w).memRead p = s.memRead p := rfl
@[simp] theorem State.setPc_pixel (w : Word) (px py : Nat) : (s.setPc w).pixel px py = s.pixel px py := rfl
@[simp] theorem State.setIndex_getV (w : Word) (r : Reg) : (s.setIndex w).getV r = s.getV r := rfl
@[simp] theorem State.setIndex_memRead (w : Word) (p : Nat) : (s.setIndex w).memRead p = s.memRead p := rfl
@[simp] theorem State.setIndex_pixel (w : Word) (px py : Nat) : (s.setIndex w).pixel px py = s.pixel px py := rfl
@[simp] theorem State.setDt_getV (b : Byte) (r : Reg) : (s.setDt b).getV r = s.getV r := rfl
@[simp] theorem State.setDt_memRead (b : Byte) (p : Nat) : (s.setDt b).memRead p = s.memRead p := rfl
@[simp] theorem State.setDt_pixel (b : Byte) (px py : Nat) : (s.setDt b).pixel px py = s.pixel px py := rfl
@[simp] theorem State.setSt_getV (b : Byte) (r : Reg) : (s.setSt b).getV r = s.getV r := rfl
@[simp] theorem State.setSt_memRead (b : Byte) (p : Nat) : (s.setSt b).memRead p = s.memRead p := rfl
@[simp] theorem State.setSt_pixel (b : Byte) (px py : Nat) : (s.setSt b).pixel px py = s.pixel px py := rfl
@[simp] theorem State.setFb_getV (cells : Cells) (r : Reg) : (s.setFb cells).getV r = s.getV r := rfl
@[simp] theorem State.setFb_memRead (cells : Cells) (p : Nat) : (s.setFb cells).memRead p = s.memRead p := rfl
@[simp] theorem State.setKey_getV (k : Fin 16) (down : Bool) (r : Reg) : (s.setKey k down).getV r = s.getV r := rfl
@[simp] theorem State.setKey_memRead (k : Fin 16) (down : Bool) (p : Nat) : (s.setKey k down).memRead p = s.memRead p := rfl
@[simp] theorem State.setKey_pixel (k : Fin 16) (down : Bool) (px py : Nat) : (s.setKey k down).pixel px py = s.pixel px py := rfl
@[simp] theorem State.enterFaulted_getV (f : Fault) (r : Reg) : (s.enterFaulted f).getV r = s.getV r := rfl
@[simp] theorem State.enterFaulted_memRead (f : Fault) (p : Nat) : (s.enterFaulted f).memRead p = s.memRead p := rfl
@[simp] theorem State.enterFaulted_pixel (f : Fault) (px py : Nat) : (s.enterFaulted f).pixel px py = s.pixel px py := rfl
@[simp] theorem State.advance_getV (r : Reg) : (s.advance).getV r = s.getV r := rfl
@[simp] theorem State.advance_memRead (p : Nat) : (s.advance).memRead p = s.memRead p := rfl
@[simp] theorem State.advance_pixel (px py : Nat) : (s.advance).pixel px py = s.pixel px py := rfl
@[simp] theorem State.endStep_getV (r : Reg) : (s.endStep).getV r = s.getV r := rfl
@[simp] theorem State.endStep_memRead (p : Nat) : (s.endStep).memRead p = s.memRead p := rfl
@[simp] theorem State.endStep_pixel (px py : Nat) : (s.endStep).pixel px py = s.pixel px py := rfl

/-! ### Registers -/

/-- Reading a register after writing one. -/
theorem State.getV_setV (x r : Reg) (b : Byte) : (s.setV x b).getV r = if r = x then b else s.getV r := by
  by_cases h : r = x
  · subst h; simp [State.getV, State.setV]
  · have hv : x.val ≠ r.val := fun e => h (Fin.ext e.symm)
    simp [State.getV, State.setV, hv, h]

@[simp] theorem State.getV_setV_self (x : Reg) (b : Byte) : (s.setV x b).getV x = b := by
  simp [State.getV_setV]

theorem State.getV_setV_ne {x r : Reg} (b : Byte) (h : r ≠ x) : (s.setV x b).getV r = s.getV r := by
  simp [State.getV_setV, h]

/-- Reading a register after the flag is written. -/
theorem State.getV_setFlag (r : Reg) (flag : Bool) :
    (s.setFlag flag).getV r = if r = vf then flagByte flag else s.getV r :=
  s.getV_setV vf r (flagByte flag)

@[simp] theorem State.setFlag_mem (flag : Bool) : (s.setFlag flag).mem = s.mem := rfl
@[simp] theorem State.setFlag_pc (flag : Bool) : (s.setFlag flag).pc = s.pc := rfl
@[simp] theorem State.setFlag_index (flag : Bool) : (s.setFlag flag).index = s.index := rfl
@[simp] theorem State.setFlag_stack (flag : Bool) : (s.setFlag flag).stack = s.stack := rfl
@[simp] theorem State.setFlag_sp (flag : Bool) : (s.setFlag flag).sp = s.sp := rfl
@[simp] theorem State.setFlag_dt (flag : Bool) : (s.setFlag flag).dt = s.dt := rfl
@[simp] theorem State.setFlag_st (flag : Bool) : (s.setFlag flag).st = s.st := rfl
@[simp] theorem State.setFlag_key (flag : Bool) : (s.setFlag flag).key = s.key := rfl
@[simp] theorem State.setFlag_fb (flag : Bool) : (s.setFlag flag).fb = s.fb := rfl
@[simp] theorem State.setFlag_status (flag : Bool) : (s.setFlag flag).status = s.status := rfl
@[simp] theorem State.setFlag_phase (flag : Bool) : (s.setFlag flag).phase = s.phase := rfl
@[simp] theorem State.setFlag_params (flag : Bool) : (s.setFlag flag).params = s.params := rfl
@[simp] theorem State.setFlag_randIn (flag : Bool) : (s.setFlag flag).randIn = s.randIn := rfl
@[simp] theorem State.setFlag_draws (flag : Bool) : (s.setFlag flag).draws = s.draws := rfl
@[simp] theorem State.setFlag_memRead (flag : Bool) (p : Nat) : (s.setFlag flag).memRead p = s.memRead p := rfl
@[simp] theorem State.setFlag_pixel (flag : Bool) (px py : Nat) :
    (s.setFlag flag).pixel px py = s.pixel px py := rfl

/-! ### skipIf and loadRegs -/

@[simp] theorem State.skipIf_pc (c : Bool) : (s.skipIf c).pc = if c then s.pc + 2 else s.pc := by
  cases c <;> rfl
@[simp] theorem State.skipIf_mem (c : Bool) : (s.skipIf c).mem = s.mem := by cases c <;> rfl
@[simp] theorem State.skipIf_v (c : Bool) : (s.skipIf c).v = s.v := by cases c <;> rfl
@[simp] theorem State.skipIf_index (c : Bool) : (s.skipIf c).index = s.index := by cases c <;> rfl
@[simp] theorem State.skipIf_stack (c : Bool) : (s.skipIf c).stack = s.stack := by cases c <;> rfl
@[simp] theorem State.skipIf_sp (c : Bool) : (s.skipIf c).sp = s.sp := by cases c <;> rfl
@[simp] theorem State.skipIf_dt (c : Bool) : (s.skipIf c).dt = s.dt := by cases c <;> rfl
@[simp] theorem State.skipIf_st (c : Bool) : (s.skipIf c).st = s.st := by cases c <;> rfl
@[simp] theorem State.skipIf_key (c : Bool) : (s.skipIf c).key = s.key := by cases c <;> rfl
@[simp] theorem State.skipIf_fb (c : Bool) : (s.skipIf c).fb = s.fb := by cases c <;> rfl
@[simp] theorem State.skipIf_status (c : Bool) : (s.skipIf c).status = s.status := by cases c <;> rfl
@[simp] theorem State.skipIf_phase (c : Bool) : (s.skipIf c).phase = s.phase := by cases c <;> rfl
@[simp] theorem State.skipIf_params (c : Bool) : (s.skipIf c).params = s.params := by cases c <;> rfl
@[simp] theorem State.skipIf_randIn (c : Bool) : (s.skipIf c).randIn = s.randIn := by cases c <;> rfl
@[simp] theorem State.skipIf_draws (c : Bool) : (s.skipIf c).draws = s.draws := by cases c <;> rfl
@[simp] theorem State.skipIf_getV (c : Bool) (r : Reg) : (s.skipIf c).getV r = s.getV r := by cases c <;> rfl
@[simp] theorem State.skipIf_memRead (c : Bool) (p : Nat) : (s.skipIf c).memRead p = s.memRead p := by cases c <;> rfl
@[simp] theorem State.skipIf_pixel (c : Bool) (px py : Nat) : (s.skipIf c).pixel px py = s.pixel px py := by
  cases c <;> rfl

@[simp] theorem State.loadRegs_mem (base : Nat) (x : Reg) : (s.loadRegs base x).mem = s.mem := rfl
@[simp] theorem State.loadRegs_pc (base : Nat) (x : Reg) : (s.loadRegs base x).pc = s.pc := rfl
@[simp] theorem State.loadRegs_index (base : Nat) (x : Reg) : (s.loadRegs base x).index = s.index := rfl
@[simp] theorem State.loadRegs_stack (base : Nat) (x : Reg) : (s.loadRegs base x).stack = s.stack := rfl
@[simp] theorem State.loadRegs_sp (base : Nat) (x : Reg) : (s.loadRegs base x).sp = s.sp := rfl
@[simp] theorem State.loadRegs_dt (base : Nat) (x : Reg) : (s.loadRegs base x).dt = s.dt := rfl
@[simp] theorem State.loadRegs_st (base : Nat) (x : Reg) : (s.loadRegs base x).st = s.st := rfl
@[simp] theorem State.loadRegs_key (base : Nat) (x : Reg) : (s.loadRegs base x).key = s.key := rfl
@[simp] theorem State.loadRegs_fb (base : Nat) (x : Reg) : (s.loadRegs base x).fb = s.fb := rfl
@[simp] theorem State.loadRegs_status (base : Nat) (x : Reg) : (s.loadRegs base x).status = s.status := rfl
@[simp] theorem State.loadRegs_phase (base : Nat) (x : Reg) : (s.loadRegs base x).phase = s.phase := rfl
@[simp] theorem State.loadRegs_params (base : Nat) (x : Reg) : (s.loadRegs base x).params = s.params := rfl
@[simp] theorem State.loadRegs_randIn (base : Nat) (x : Reg) : (s.loadRegs base x).randIn = s.randIn := rfl
@[simp] theorem State.loadRegs_draws (base : Nat) (x : Reg) : (s.loadRegs base x).draws = s.draws := rfl
@[simp] theorem State.loadRegs_memRead (base : Nat) (x : Reg) (p : Nat) :
    (s.loadRegs base x).memRead p = s.memRead p := rfl
@[simp] theorem State.loadRegs_pixel (base : Nat) (x : Reg) (px py : Nat) :
    (s.loadRegs base x).pixel px py = s.pixel px py := rfl

/-- A block load writes V0 to Vx from memory and keeps the others. -/
theorem State.getV_loadRegs (base : Nat) (x r : Reg) :
    (s.loadRegs base x).getV r = if r ≤ x then s.memRead (base + r.val) else s.getV r := by
  simp [State.getV, State.loadRegs]

end Sys2Proof.Machine
end

