-- ==== Sys2Proof/Laws/Memory.lean ====
section
/-! SUPPORT. The laws of the sparse stores and of memory: a read after a write, and the canonical form kept by every
memory operation. -/

namespace Sys2Proof.Machine

/-! ### Reads after writes -/

section
variable (d : Nat → Byte)

theorem Cells.read_insert (m : Cells) (a p : Nat) (b : Byte) :
    Cells.read d (Cells.insert m a b) p = if p = a then b else Cells.read d m p := by
  induction m with
  | nil => simp [Cells.insert, Cells.read]
  | cons c rest ih =>
    obtain ⟨k, w⟩ := c
    by_cases h1 : a < k
    · simp [Cells.insert, h1, Cells.read]
    · by_cases h2 : a = k
      · subst h2
        by_cases hp : p = a <;> simp [Cells.insert, Cells.read, hp]
      · by_cases hk : p = k
        · have hp : p ≠ a := by omega
          simp [Cells.insert, h1, h2, Cells.read, hk]
          omega
        · simp [Cells.insert, h1, h2, Cells.read, hk, ih]

theorem Cells.read_erase (m : Cells) (a p : Nat) :
    Cells.read d (Cells.erase m a) p = if p = a then d p else Cells.read d m p := by
  induction m with
  | nil => simp [Cells.erase, Cells.read]
  | cons c rest ih =>
    obtain ⟨k, w⟩ := c
    by_cases hk : k = a
    · subst hk
      have : Cells.erase ((k, w) :: rest) k = Cells.erase rest k := by simp [Cells.erase]
      rw [this, ih]
      by_cases hp : p = k <;> simp [Cells.read, hp]
    · have : Cells.erase ((k, w) :: rest) a = (k, w) :: Cells.erase rest a := by simp [Cells.erase, hk]
      rw [this]
      by_cases hp : p = k
      · have : p ≠ a := by omega
        simp [Cells.read, hp, hk]
      · simp [Cells.read, hp, ih]

/-- A store reads back what was written, and every other address as before. -/
theorem Cells.read_write (m : Cells) (a p : Nat) (b : Byte) :
    Cells.read d (Cells.write d m a b) p = if p = a then b else Cells.read d m p := by
  unfold Cells.write
  split_ifs with h hp hp
  · rw [Cells.read_erase]; subst hp; simp [h]
  · rw [Cells.read_erase]; simp [hp]
  · rw [Cells.read_insert]; simp [hp]
  · rw [Cells.read_insert]; simp [hp]

/-! ### The canonical form -/

theorem Cells.wf_cons {size : Nat} {c : Host.Cell} {rest : Cells} :
    Cells.wf d size (c :: rest) = true ↔
      (∀ e ∈ rest, c.1 < e.1) ∧ c.1 < size ∧ c.2 ≠ d c.1 ∧ Cells.wf d size rest = true := by
  simp only [Cells.wf, Cells.rising, List.all_cons, Bool.and_eq_true, List.all_eq_true, decide_eq_true_eq, bne_iff_ne]
  tauto

theorem Cells.mem_insert {m : Cells} {a : Nat} {b : Byte} {e : Host.Cell} (h : e ∈ Cells.insert m a b) :
    e = (a, b) ∨ e ∈ m := by
  induction m with
  | nil => simpa [Cells.insert] using h
  | cons c rest ih =>
    obtain ⟨k, w⟩ := c
    simp only [Cells.insert] at h
    split_ifs at h <;> simp at h ⊢ <;> tauto

theorem Cells.wf_insert {size : Nat} {m : Cells} {a : Nat} {b : Byte} (hm : Cells.wf d size m = true)
    (ha : a < size) (hb : b ≠ d a) : Cells.wf d size (Cells.insert m a b) = true := by
  induction m with
  | nil => simp [Cells.insert, Cells.wf, Cells.rising, ha, hb]
  | cons c rest ih =>
    obtain ⟨k, w⟩ := c
    obtain ⟨hlt, hk, hw, hr⟩ := (Cells.wf_cons d).1 hm
    simp only [Cells.insert]
    split_ifs with h1 h2
    · refine (Cells.wf_cons d).2 ⟨?_, ha, hb, hm⟩
      intro e he
      rcases List.mem_cons.1 he with rfl | he
      · exact h1
      · exact lt_trans h1 (hlt e he)
    · subst h2
      exact (Cells.wf_cons d).2 ⟨hlt, ha, hb, hr⟩
    · refine (Cells.wf_cons d).2 ⟨?_, hk, hw, ih hr⟩
      intro e he
      rcases Cells.mem_insert he with rfl | he
      · show k < a
        omega
      · exact hlt e he

theorem Cells.wf_erase {size : Nat} {m : Cells} {a : Nat} (hm : Cells.wf d size m = true) :
    Cells.wf d size (Cells.erase m a) = true := by
  induction m with
  | nil => exact hm
  | cons c rest ih =>
    obtain ⟨hlt, hk, hw, hr⟩ := (Cells.wf_cons d).1 hm
    by_cases hc : c.1 = a
    · have : Cells.erase (c :: rest) a = Cells.erase rest a := by simp [Cells.erase, hc]
      rw [this]; exact ih hr
    · have : Cells.erase (c :: rest) a = c :: Cells.erase rest a := by simp [Cells.erase, hc]
      rw [this]
      exact (Cells.wf_cons d).2 ⟨fun e he => hlt e (List.mem_filter.1 he).1, hk, hw, ih hr⟩

/-- A write inside the store keeps its canonical form. -/
theorem Cells.wf_write {size : Nat} {m : Cells} {a : Nat} {b : Byte} (hm : Cells.wf d size m = true)
    (ha : a < size) : Cells.wf d size (Cells.write d m a b) = true := by
  unfold Cells.write
  split_ifs with h
  · exact Cells.wf_erase d hm
  · exact Cells.wf_insert d hm ha h

theorem Cells.mem_write {m : Cells} {a : Nat} {b : Byte} {e : Host.Cell} (h : e ∈ Cells.write d m a b) :
    e = (a, b) ∨ e ∈ m := by
  unfold Cells.write at h
  split_ifs at h
  · exact .inr (List.mem_filter.1 h).1
  · exact Cells.mem_insert h

/-- In canonical form a listed byte is what its address reads as. -/
theorem Cells.read_of_mem {size : Nat} {m : Cells} (hm : Cells.wf d size m = true) {e : Host.Cell} (he : e ∈ m) :
    Cells.read d m e.1 = e.2 := by
  induction m with
  | nil => cases he
  | cons c rest ih =>
    obtain ⟨hlt, -, -, hr⟩ := (Cells.wf_cons d).1 hm
    rcases List.mem_cons.1 he with rfl | he
    · simp [Cells.read]
    · have := hlt e he
      simp only [Cells.read]
      rw [if_neg (by omega)]
      exact ih hr he

theorem Cells.read_eq_unlisted (m : Cells) (p : Nat) (h : ∀ e ∈ m, e.1 ≠ p) : Cells.read d m p = d p := by
  induction m with
  | nil => rfl
  | cons c rest ih =>
    have h1 := h c (List.mem_cons_self ..)
    simp only [Cells.read]
    rw [if_neg (fun e => h1 e.symm)]
    exact ih (fun e he => h e (List.mem_cons_of_mem _ he))

/-- Two canonical stores that read the same everywhere are the same data. -/
theorem Cells.ext_of_read {size : Nat} {m m' : Cells} (hm : Cells.wf d size m = true)
    (hm' : Cells.wf d size m' = true) (h : ∀ p, Cells.read d m p = Cells.read d m' p) : m = m' := by
  have lower : ∀ {c : Host.Cell} {rest m' : Cells}, Cells.wf d size (c :: rest) = true →
      Cells.wf d size m' = true → (∀ p, Cells.read d (c :: rest) p = Cells.read d m' p) → ∃ e ∈ m', e.1 = c.1 := by
    intro c rest m' hc _ hr
    by_contra hno
    have := hr c.1
    rw [Cells.read_eq_unlisted d m' c.1 (fun e he hk => hno ⟨e, he, hk⟩)] at this
    simp only [Cells.read, if_true] at this
    exact ((Cells.wf_cons d).1 hc).2.2.1 this
  induction m generalizing m' with
  | nil =>
    cases m' with
    | nil => rfl
    | cons c' r' =>
      obtain ⟨e, he, -⟩ := lower hm' hm (fun p => (h p).symm)
      cases he
  | cons c rest ih =>
    cases m' with
    | nil =>
      obtain ⟨e, he, -⟩ := lower hm hm' h
      cases he
    | cons c' r' =>
      obtain ⟨hlt, -, -, hr⟩ := (Cells.wf_cons d).1 hm
      obtain ⟨hlt', -, -, hr'⟩ := (Cells.wf_cons d).1 hm'
      have hkey : c.1 = c'.1 := by
        obtain ⟨e, he, hek⟩ := lower hm hm' h
        obtain ⟨e', he', hek'⟩ := lower hm' hm (fun p => (h p).symm)
        rcases List.mem_cons.1 he with rfl | he
        · exact hek.symm
        · rcases List.mem_cons.1 he' with rfl | he'
          · exact hek'
          · have := hlt' e he
            have := hlt e' he'
            omega
      have hval : c.2 = c'.2 := by
        have := h c.1
        simpa [Cells.read, hkey] using this
      have htail : rest = r' := by
        refine ih hr hr' (fun p => ?_)
        by_cases hp : p = c.1
        · subst hp
          rw [Cells.read_eq_unlisted d rest c.1 (fun e he => by have := hlt e he; omega),
            Cells.read_eq_unlisted d r' c.1 (fun e he => by have := hlt' e he; omega)]
        · have := h p
          simp only [Cells.read] at this
          rwa [if_neg hp, if_neg (by omega)] at this
      rw [htail, Prod.ext hkey hval]

end

/-! ### Memory -/

/-- A byte read after one byte is written. -/
theorem State.memRead_memWrite (s : State) (a p : Nat) (b : Byte) :
    (s.memWrite a b).memRead p = if p = a then b else s.memRead p :=
  Cells.read_write (Memory.unlisted s.params.font) s.mem a p b

/-- A write inside the array keeps memory canonical. -/
theorem Memory.wf_memWrite (s : State) (a : Nat) (b : Byte) (ha : a < memSize)
    (h : Memory.wf s.params.font s.mem = true) :
    Memory.wf (s.memWrite a b).params.font (s.memWrite a b).mem = true :=
  Cells.wf_write _ h ha

/-- A byte read after a run of bytes is written at rising addresses. -/
theorem State.memRead_memWriteAll (bytes : List Byte) :
    ∀ (s : State) (base p : Nat), (s.memWriteAll base bytes).memRead p =
      if h : base ≤ p ∧ p < base + bytes.length then bytes[p - base]'(by omega) else s.memRead p := by
  induction bytes with
  | nil => intro s base p; rw [dif_neg (by simp)]; rfl
  | cons b rest ih =>
    intro s base p
    rw [State.memWriteAll, ih]
    by_cases hp : base + 1 ≤ p ∧ p < base + 1 + rest.length
    · rw [dif_pos hp, dif_pos ⟨by omega, by simp only [List.length_cons]; omega⟩]
      rw [List.getElem_cons, dif_neg (by omega)]
      congr 1
    · rw [dif_neg hp, State.memRead_memWrite]
      by_cases he : p = base
      · subst he
        simp
      · rw [if_neg he, dif_neg]
        simp only [List.length_cons]
        omega

theorem State.memRead_memWriteAll_outside (bytes : List Byte) (s : State) (base p : Nat)
    (h : p < base ∨ base + bytes.length ≤ p) : (s.memWriteAll base bytes).memRead p = s.memRead p := by
  rw [State.memRead_memWriteAll, dif_neg (by omega)]

/-- Writing a run of bytes inside the array keeps memory canonical. -/
theorem Memory.wf_memWriteAll (bytes : List Byte) : ∀ (s : State) (base : Nat), base + bytes.length ≤ memSize →
    Memory.wf s.params.font s.mem = true →
    Memory.wf (s.memWriteAll base bytes).params.font (s.memWriteAll base bytes).mem = true := by
  induction bytes with
  | nil => intro s base _ h; exact h
  | cons b rest ih =>
    intro s base hlen h
    simp only [List.length_cons] at hlen
    exact ih _ _ (by omega) (Memory.wf_memWrite s base b (by omega) h)

/-- Writing a run of bytes changes the memory field alone. -/
theorem State.memWriteAll_eq (bytes : List Byte) : ∀ (s : State) (base : Nat),
    s.memWriteAll base bytes = { s with mem := (s.memWriteAll base bytes).mem } := by
  induction bytes with
  | nil => intro s base; rfl
  | cons b rest ih =>
    intro s base
    rw [State.memWriteAll, ih]
    rfl

section
variable (bytes : List Byte) (s : State) (base : Nat)

@[simp] theorem State.memWriteAll_v : (s.memWriteAll base bytes).v = s.v := by
  rw [State.memWriteAll_eq]
@[simp] theorem State.memWriteAll_pc : (s.memWriteAll base bytes).pc = s.pc := by
  rw [State.memWriteAll_eq]
@[simp] theorem State.memWriteAll_index : (s.memWriteAll base bytes).index = s.index := by
  rw [State.memWriteAll_eq]
@[simp] theorem State.memWriteAll_stack : (s.memWriteAll base bytes).stack = s.stack := by
  rw [State.memWriteAll_eq]
@[simp] theorem State.memWriteAll_sp : (s.memWriteAll base bytes).sp = s.sp := by
  rw [State.memWriteAll_eq]
@[simp] theorem State.memWriteAll_dt : (s.memWriteAll base bytes).dt = s.dt := by
  rw [State.memWriteAll_eq]
@[simp] theorem State.memWriteAll_st : (s.memWriteAll base bytes).st = s.st := by
  rw [State.memWriteAll_eq]
@[simp] theorem State.memWriteAll_key : (s.memWriteAll base bytes).key = s.key := by
  rw [State.memWriteAll_eq]
@[simp] theorem State.memWriteAll_fb : (s.memWriteAll base bytes).fb = s.fb := by
  rw [State.memWriteAll_eq]
@[simp] theorem State.memWriteAll_status : (s.memWriteAll base bytes).status = s.status := by
  rw [State.memWriteAll_eq]
@[simp] theorem State.memWriteAll_phase : (s.memWriteAll base bytes).phase = s.phase := by
  rw [State.memWriteAll_eq]
@[simp] theorem State.memWriteAll_params : (s.memWriteAll base bytes).params = s.params := by
  rw [State.memWriteAll_eq]
@[simp] theorem State.memWriteAll_randIn : (s.memWriteAll base bytes).randIn = s.randIn := by
  rw [State.memWriteAll_eq]
@[simp] theorem State.memWriteAll_draws : (s.memWriteAll base bytes).draws = s.draws := by
  rw [State.memWriteAll_eq]
@[simp] theorem State.memWriteAll_getV (r : Reg) : (s.memWriteAll base bytes).getV r = s.getV r := by
  rw [State.memWriteAll_eq]; rfl
@[simp] theorem State.memWriteAll_pixel (px py : Nat) :
    (s.memWriteAll base bytes).pixel px py = s.pixel px py := by
  rw [State.memWriteAll_eq]; rfl

end

end Sys2Proof.Machine
end

