-- ==== Sys2Proof/Laws/Ops.lean ====
section
/-! SUPPORT. One lemma for each shared operation, saying all it can do, and the ways a step can end. -/

namespace Sys2Proof.Machine

/-! ### Checks and faults -/

/-- A guarded result is a next state only when the check passes. -/
theorem orFault_eq_next {c : Option Fault} {r : StepResult} {t : State} :
    orFault c r = .next t ↔ c = none ∧ r = .next t := by
  cases c <;> simp [orFault, raise]

/-- A guarded result is a fault when the check fails, or when the result is. -/
theorem orFault_eq_fault {c : Option Fault} {r : StepResult} {f : Fault} :
    orFault c r = .fault f ↔ c = some f ∨ (c = none ∧ r = .fault f) := by
  cases c <;> simp [orFault, raise]

theorem orFault_eq_refused {c : Option Fault} {r : StepResult} {q : Refusal} :
    orFault c r = .refused q ↔ c = none ∧ r = .refused q := by
  cases c <;> simp [orFault, raise]

@[simp] theorem orFault_none (r : StepResult) : orFault none r = r := rfl

@[simp] theorem orFault_some (f : Fault) (r : StepResult) : orFault (some f) r = .fault f := rfl

@[simp] theorem raise_eq (f : Fault) : raise f = .fault f := rfl

/-- CheckRange passes exactly when the bytes lie in the array (20_memory.md R230). -/
theorem State.checkRange_eq (s : State) (i : Instr) (len : Nat) :
    s.checkRange i len = if 4096 < s.index.toNat + len then
      some (.memoryRange (s.pc - 2) (encode i) s.index.toNat len) else none := rfl

theorem State.checkRange_eq_none {s : State} {i : Instr} {len : Nat} :
    s.checkRange i len = none ↔ s.index.toNat + len ≤ 4096 := by
  rw [State.checkRange_eq]
  split_ifs with h
  · simp; omega
  · simp; omega

/-- CheckLowWrite passes exactly when nothing is written, the write starts at 0x200 or above, or low writes are admitted
(20_memory.md R231). -/
theorem State.checkLowWrite_eq_none {s : State} {i : Instr} {len : Nat} :
    s.checkLowWrite i len = none ↔ len = 0 ∨ 0x200 ≤ s.index.toNat ∨ s.params.lowWrite = .write := by
  unfold State.checkLowWrite
  cases hw : s.params.lowWrite <;> simp
  omega

theorem State.checkLowWrite_eq_some {s : State} {i : Instr} {len : Nat} (hl : 0 < len) (hi : s.index.toNat < 0x200)
    (hw : s.params.lowWrite = .fault) :
    s.checkLowWrite i len = some (.lowWrite (s.pc - 2) (encode i) s.index.toNat len) :=
  if_pos ⟨hl, hi, hw⟩

/-- `index.load` (42_index_memory.md R601). -/
theorem State.indexLoad_of_le {s : State} {i : Instr} {value : Nat} (h : value ≤ 0xFFF) :
    s.indexLoad i value = .next (s.setIndex (BitVec.ofNat 16 value)) :=
  if_neg (by omega)

/-- `index.add` (R602). -/
theorem State.indexAdd_of_le {s : State} {i : Instr} {b : Byte} (h : s.index.toNat + b.toNat ≤ 0xFFFF) :
    s.indexAdd i b = .next (s.setIndex (BitVec.ofNat 16 (s.index.toNat + b.toNat))) :=
  if_neg (by omega)

theorem State.indexAdd_of_gt {s : State} {i : Instr} {b : Byte} (h : 0xFFFF < s.index.toNat + b.toNat) :
    s.indexAdd i b = .fault (.indexOverflow (s.pc - 2) (encode i) (s.index.toNat + b.toNat)) :=
  if_pos (by omega)

/-! ### Keys, registers, digits -/

/-- `keypad.is_pressed` of an index 0 to 15 (43_timers_keypad.md R730). -/
theorem State.isPressed_of_eq {s : State} {b : Byte} {k : Fin 16} (h : b.toNat = k.val) :
    s.isPressed b = some (s.keyDown k) := by
  have hk : (⟨b.toNat, by omega⟩ : Fin 16) = k := Fin.ext h
  have hlt : b.toNat < 16 := by omega
  rw [State.isPressed, dif_pos hlt, hk]

theorem State.isPressed_of_gt {s : State} {b : Byte} (h : 15 < b.toNat) : s.isPressed b = none :=
  dif_neg (by omega)

/-- `keypad.pressed_key` is `none` exactly when every key is up (R731). -/
theorem State.pressedKey_eq_none {s : State} : s.pressedKey = none ↔ ∀ k, s.keyDown k = false := by
  simp [State.pressedKey, List.find?_eq_none]

/-- `keypad.pressed_key` is the lowest key down (R731). -/
theorem State.pressedKey_eq_some {s : State} {k : Fin 16} :
    s.pressedKey = some k ↔ s.keyDown k = true ∧ ∀ j < k, s.keyDown j = false := by
  rw [State.pressedKey, List.find?_eq_some_iff_getElem]
  constructor
  · rintro ⟨hk, n, hn, hget, hlow⟩
    have hkn : k.val = n := by rw [← hget]; simp
    refine ⟨hk, fun j hj => ?_⟩
    have := hlow j.val (by have : j.val < k.val := hj; omega)
    simpa using this
  · rintro ⟨hk, hlow⟩
    refine ⟨hk, k.val, by simp, by simp, fun j hj => ?_⟩
    have := hlow ⟨j, by omega⟩ hj
    simpa using this

/-- The bytes a block store writes are V0 to Vx (42_index_memory.md R650). -/
@[simp] theorem State.regsUpTo_length (s : State) (x : Reg) : (s.regsUpTo x).length = x.val + 1 := by
  simp [State.regsUpTo]

theorem State.regsUpTo_getElem (s : State) (x k : Reg) (h : k.val < (s.regsUpTo x).length) :
    (s.regsUpTo x)[k.val] = s.getV k := by
  simp [State.regsUpTo, State.getV]

@[simp] theorem bcdDigits_length (b : Byte) : (bcdDigits b).length = 3 := rfl

/-- The flag byte is 0 or 1 (10_state.md R103). -/
theorem flagByte_cases (flag : Bool) : flagByte flag = 0 ∨ flagByte flag = 1 := by
  cases flag <;> simp [flagByte]

theorem flagByte_eq_one {flag : Bool} : flagByte flag = 1 ↔ flag = true := by
  cases flag <;> simp [flagByte]

/-- The tick by value (43_timers_keypad.md R701). -/
theorem toNat_tick (b : Byte) : (tick b).toNat = b.toNat - 1 := by
  unfold tick
  split_ifs with h
  · subst h; rfl
  · have hb : b.toNat ≠ 0 := fun e => h (BitVec.eq_of_toNat_eq e)
    have := b.isLt
    rw [BitVec.toNat_sub]
    simp
    omega

/-! ### The host's ROM load -/

theorem romWellFormed_iff {rom : List Byte} : romWellFormed rom = true ↔ 1 ≤ rom.length ∧ rom.length ≤ 3584 := by
  simp [romWellFormed]

/-- A ROM load that is admitted and of valid length (70_reset_and_hazards.md R1012). -/
theorem State.loadRom_of_valid {s : State} {rom : List Byte} (hp : s.phase = .fresh) (h : romWellFormed rom = true) :
    s.loadRom rom = .loaded { s.memWriteAll 0x200 rom with phase := .loaded } := by
  simp [State.loadRom, hp, h]

/-! ### How a step ends -/

theorem endOfStep_eq_next {r : StepResult} {t : State} :
    endOfStep r = .next t ↔ ∃ u, r = .next u ∧ t = u.endStep := by
  cases r <;> simp [endOfStep, eq_comm]

theorem endOfStep_eq_fault {r : StepResult} {f : Fault} : endOfStep r = .fault f ↔ r = .fault f := by
  cases r <;> simp [endOfStep]

/-- The fetch in range gives the opcode at pc (30_encoding.md R330). -/
theorem State.fetch_of_lt {s : State} (h : s.pc.toNat + 1 < 4096) : s.fetch = .ok s.opcodeAt :=
  if_neg (by simp only [memSize]; omega)

theorem State.fetch_of_ge {s : State} (h : 4096 ≤ s.pc.toNat + 1) : s.fetch = .error (.fetchRange s.pc) :=
  if_pos h

/-- A state that runs `i` steps by it (R331, R333). -/
theorem step_of_runs {s : State} {i : Instr} (h : s.Runs i) : step s = endOfStep (exec i s.advance) := by
  obtain ⟨hs, hp, hd⟩ := h
  simp only [step, hs, State.fetch_of_lt hp, hd]

/-- What a step that completes has done: it ran one instruction, which answered a next state, and ended the step. -/
theorem step_eq_next {s t : State} (h : step s = .next t) :
    ∃ i u, s.Runs i ∧ exec i s.advance = .next u ∧ t = u.endStep := by
  unfold step at h
  split at h
  · cases h
  · rename_i hs
    by_cases hp : s.pc.toNat + 1 < 4096
    · rw [State.fetch_of_lt hp] at h
      simp only at h
      split at h
      · cases h
      · rename_i i hd
        obtain ⟨u, hu, ht⟩ := endOfStep_eq_next.1 h
        exact ⟨i, u, ⟨hs, hp, hd⟩, hu, ht⟩
    · rw [State.fetch_of_ge (by omega)] at h
      cases h

/-- The ways a step can fault: at the fetch, at the decode, or in the instruction (60_exceptions.md R910). -/
theorem step_eq_fault {s : State} {f : Fault} (h : step s = .fault f) :
    (4096 ≤ s.pc.toNat + 1 ∧ f = .fetchRange s.pc) ∨
    (s.pc.toNat + 1 < 4096 ∧ decode s.opcodeAt = none ∧ f = .illegalOpcode s.pc s.opcodeAt) ∨
    ∃ i, s.Runs i ∧ exec i s.advance = .fault f := by
  unfold step at h
  split at h
  · cases h
  · rename_i hs
    by_cases hp : s.pc.toNat + 1 < 4096
    · rw [State.fetch_of_lt hp] at h
      simp only at h
      split at h
      · rename_i hd
        cases h
        exact .inr (.inl ⟨hp, hd, rfl⟩)
      · rename_i i hd
        exact .inr (.inr ⟨i, ⟨hs, hp, hd⟩, endOfStep_eq_fault.1 h⟩)
    · rw [State.fetch_of_ge (by omega)] at h
      cases h
      exact .inl ⟨by omega, rfl⟩

/-- A state to which a word of the table has been given runs that instruction, where the fetch is in range. -/
theorem State.opcodeAt_withFetchWord (s : State) (nbits w : Nat) :
    (s.withFetchWord nbits w).opcodeAt = tableOpcode nbits w := by
  simp [State.opcodeAt, State.withFetchWord, State.memRead_memWrite]

end Sys2Proof.Machine
end

