-- ==== Sys2Proof/Laws/Display.lean ====
section
/-! SUPPORT. What the sprite draw does, said once: which pixels its targets are, what flipping them leaves, and that the
frame buffer keeps its canonical form. -/

namespace Sys2Proof.Machine

/-! ### The targets of a sprite -/

theorem mem_rowTargets {x0 y0 r : Nat} {row : Byte} {q : Nat × Nat} :
    q ∈ rowTargets x0 y0 r row ↔ ∃ c < 8, row.getLsbD (7 - c) = true ∧ q = (x0 + c, y0 + r) := by
  simp only [rowTargets, List.mem_map, List.mem_filter, List.mem_range]
  constructor
  · rintro ⟨c, ⟨h1, h2⟩, h3⟩
    exact ⟨c, h1, h2, h3.symm⟩
  · rintro ⟨c, h1, h2, h3⟩
    exact ⟨c, ⟨h1, h2⟩, h3.symm⟩

theorem mem_spriteTargets {x0 y0 : Nat} {rows : List Byte} {q : Nat × Nat} : ∀ {r : Nat},
    q ∈ spriteTargets x0 y0 r rows ↔
      ∃ (k : Nat) (h : k < rows.length) (c : Nat), c < 8 ∧ rows[k].getLsbD (7 - c) = true ∧
        q = (x0 + c, y0 + (r + k)) := by
  induction rows with
  | nil => intro r; simp [spriteTargets]
  | cons row rest ih =>
    intro r
    rw [spriteTargets, List.mem_append, mem_rowTargets, ih]
    constructor
    · rintro (⟨c, hc, hb, rfl⟩ | ⟨k, hk, c, hc, hb, rfl⟩)
      · exact ⟨0, by simp, c, hc, hb, rfl⟩
      · exact ⟨k + 1, by simpa using hk, c, hc, hb, by simp only [Prod.mk.injEq, true_and]; omega⟩
    · rintro ⟨k, hk, c, hc, hb, rfl⟩
      cases k with
      | zero => exact .inl ⟨c, hc, hb, rfl⟩
      | succ k =>
        exact .inr ⟨k, by simpa using hk, c, hc, hb, by simp only [Prod.mk.injEq, true_and]; omega⟩

/-- The targets of a draw are the places of the set bits of the sprite (44_display.md R810, R811). -/
theorem State.mem_targets (s : State) (x0 y0 n : Nat) (q : Nat × Nat) :
    q ∈ spriteTargets x0 y0 0 (s.spriteRows n) ↔
      ∃ c r, s.spriteBit n c r = true ∧ q = (x0 + c, y0 + r) := by
  rw [mem_spriteTargets]
  constructor
  · rintro ⟨k, hk, c, hc, hb, rfl⟩
    have hkn : k < n := by simpa [State.spriteRows] using hk
    refine ⟨c, k, ?_, by simp⟩
    have : (s.memRead (s.index.toNat + k)).getLsbD (7 - c) = true := by simpa [State.spriteRows] using hb
    simp [State.spriteBit, hkn, hc, this]
  · rintro ⟨c, r, hb, rfl⟩
    simp only [State.spriteBit, Bool.and_eq_true, decide_eq_true_eq] at hb
    refine ⟨r, by simpa [State.spriteRows] using hb.1.1, c, hb.1.2, ?_, by simp⟩
    simpa [State.spriteRows] using hb.2

theorem onScreen_iff {q : Nat × Nat} : onScreen q = true ↔ q.1 < 64 ∧ q.2 < 32 := by
  rw [onScreen, Bool.and_eq_true, decide_eq_true_iff, decide_eq_true_iff]
  exact Iff.rfl

/-- The targets of a draw on a place of the screen are what `hits` says (R811). -/
theorem State.mem_targets_iff_hits (s : State) (x y : Reg) (n px py : Nat) :
    (px, py) ∈ spriteTargets (s.anchorX x) (s.anchorY y) 0 (s.spriteRows n) ↔ s.hits x y n px py = true := by
  rw [State.mem_targets, State.hits]
  simp only [Bool.and_eq_true, decide_eq_true_eq]
  constructor
  · rintro ⟨c, r, hb, he⟩
    simp only [Prod.mk.injEq] at he
    obtain ⟨rfl, rfl⟩ := he
    refine ⟨⟨by omega, by omega⟩, ?_⟩
    simpa using hb
  · rintro ⟨⟨h1, h2⟩, hb⟩
    exact ⟨_, _, hb, by simp only [Prod.mk.injEq]; omega⟩

/-- No place is the target of two bits of one sprite (R814). -/
theorem spriteTargets_nodup {x0 y0 : Nat} {rows : List Byte} : ∀ {r : Nat}, (spriteTargets x0 y0 r rows).Nodup := by
  induction rows with
  | nil => intro r; simp [spriteTargets]
  | cons row rest ih =>
    intro r
    rw [spriteTargets, List.nodup_append]
    refine ⟨?_, ih, ?_⟩
    · refine List.Nodup.map ?_ (List.Nodup.filter _ List.nodup_range)
      intro a b hab
      simpa using hab
    · rintro a ha b hb rfl
      obtain ⟨c, -, -, rfl⟩ := mem_rowTargets.1 ha
      obtain ⟨k, hk, c', -, -, he⟩ := mem_spriteTargets.1 hb
      simp only [Prod.mk.injEq] at he
      omega

/-! ### Flipping pixels -/

/-- The place of a target in the frame buffer (10_state.md R126). -/
def pixelIndex (q : Nat × Nat) : Nat := q.2 * fbWidth + q.1

theorem FrameBuffer.read_write (fb : Cells) (p q : Nat) (b : Byte) :
    FrameBuffer.read (FrameBuffer.write fb p b) q = if q = p then b else FrameBuffer.read fb q :=
  Cells.read_write FrameBuffer.unlisted fb p q b

/-- Flipping targets at different places: each is flipped once, and a collision is one that was lit before (R812, R814). -/
theorem flipPixels_spec (targets : List (Nat × Nat)) (hn : (targets.map pixelIndex).Nodup) :
    ∀ (fb : Cells) (hit : Bool),
      (∀ p, FrameBuffer.read (targets.foldl flipPixel (fb, hit)).1 p =
        if p ∈ targets.map pixelIndex then FrameBuffer.read fb p ^^^ 0xFF else FrameBuffer.read fb p) ∧
      ((targets.foldl flipPixel (fb, hit)).2 = true ↔
        hit = true ∨ ∃ q ∈ targets, FrameBuffer.read fb (pixelIndex q) = 0xFF) := by
  induction targets with
  | nil => intro fb hit; simp
  | cons q rest ih =>
    intro fb hit
    rw [List.map_cons, List.nodup_cons] at hn
    obtain ⟨h1, h2⟩ := ih hn.2 (flipPixel (fb, hit) q).1 (flipPixel (fb, hit) q).2
    have hread : ∀ p, FrameBuffer.read (flipPixel (fb, hit) q).1 p =
        if p = pixelIndex q then FrameBuffer.read fb (pixelIndex q) ^^^ 0xFF else FrameBuffer.read fb p :=
      fun p => FrameBuffer.read_write fb (pixelIndex q) p _
    have hhit : (flipPixel (fb, hit) q).2 = (hit || FrameBuffer.read fb (pixelIndex q) == 0xFF) := rfl
    constructor
    · intro p
      rw [List.foldl_cons, h1, hread, List.map_cons]
      simp only [List.mem_cons]
      by_cases hp : p = pixelIndex q
      · subst hp
        simp only [if_neg hn.1, true_or, if_true]
      · simp only [hp, false_or, if_false]
    · rw [List.foldl_cons, h2, hhit]
      have hrest : ∀ q' ∈ rest, FrameBuffer.read (flipPixel (fb, hit) q).1 (pixelIndex q') =
          FrameBuffer.read fb (pixelIndex q') := by
        intro q' hq'
        rw [hread, if_neg]
        intro he
        exact hn.1 (he ▸ List.mem_map_of_mem hq')
      simp only [Bool.or_eq_true, beq_iff_eq, List.mem_cons, exists_eq_or_imp, or_assoc]
      constructor
      · rintro (h | h | ⟨q', hq', h⟩)
        · exact .inl h
        · exact .inr (.inl h)
        · exact .inr (.inr ⟨q', hq', by rwa [hrest q' hq'] at h⟩)
      · rintro (h | h | ⟨q', hq', h⟩)
        · exact .inl h
        · exact .inr (.inl h)
        · exact .inr (.inr ⟨q', hq', by rwa [hrest q' hq']⟩)

/-- Places on the screen are different pixels. -/
theorem pixelIndex_inj {a b : Nat × Nat} (ha : a.1 < 64) (hb : b.1 < 64) (h : pixelIndex a = pixelIndex b) : a = b := by
  simp only [pixelIndex, fbWidth] at h
  exact Prod.ext (by omega) (by omega)

/-- Distinct places on the screen are distinct pixels. -/
theorem nodup_pixelIndex {targets : List (Nat × Nat)} (hn : targets.Nodup) (h : ∀ q ∈ targets, q.1 < 64) :
    (targets.map pixelIndex).Nodup :=
  List.Nodup.map_on (fun a ha b hb => pixelIndex_inj (h a ha) (h b hb)) hn

/-- Flipping targets that are distinct places of the screen draws the bits they are (R812, R814, R820). -/
theorem drawn_of_targets (s : State) (targets : List (Nat × Nat)) (hit : Nat → Nat → Bool) (hn : targets.Nodup)
    (hs : ∀ q ∈ targets, q.1 < 64 ∧ q.2 < 32)
    (hm : ∀ px < 64, ∀ py < 32, (px, py) ∈ targets ↔ hit px py = true) :
    Drawn hit s ((s.setFb (flipPixels s.fb targets).1).setFlag (flipPixels s.fb targets).2) := by
  obtain ⟨h1, h2⟩ := flipPixels_spec targets (nodup_pixelIndex hn (fun q hq => (hs q hq).1)) s.fb false
  have hidx : ∀ px < 64, ∀ py < 32, py * 64 + px ∈ targets.map pixelIndex ↔ hit px py = true := by
    intro px hx py hy
    rw [← hm px hx py hy, List.mem_map]
    constructor
    · rintro ⟨q, hq, he⟩
      have : q = (px, py) := pixelIndex_inj (hs q hq).1 hx he
      rwa [← this]
    · intro h
      exact ⟨_, h, rfl⟩
  refine ⟨?_, ?_, ?_⟩
  · intro px hx py hy
    show FrameBuffer.read (flipPixels s.fb targets).1 (py * 64 + px) = _
    rw [flipPixels, h1]
    by_cases hh : hit px py = true
    · rw [if_pos ((hidx px hx py hy).2 hh), if_pos hh]
      rfl
    · rw [if_neg (fun h => hh ((hidx px hx py hy).1 h)), if_neg hh]
      rfl
  · rw [State.getV_setFlag, if_pos rfl]
    exact flagByte_cases _
  · rw [State.getV_setFlag, if_pos rfl, flagByte_eq_one, flipPixels, h2]
    constructor
    · rintro (h | ⟨q, hq, hl⟩)
      · cases h
      · exact ⟨q.1, (hs q hq).1, q.2, (hs q hq).2, (hm _ (hs q hq).1 _ (hs q hq).2).1 hq, hl⟩
    · rintro ⟨px, hx, py, hy, hh, hl⟩
      exact .inr ⟨(px, py), (hm _ hx _ hy).2 hh, hl⟩

/-! ### The canonical form of the frame buffer -/

theorem FrameBuffer.wf_iff {fb : Cells} : FrameBuffer.wf fb = true ↔
    Cells.wf FrameBuffer.unlisted 2048 fb = true ∧ ∀ e ∈ fb, e.2 = 0xFF := by
  simp [FrameBuffer.wf, fbWidth, fbHeight]

/-- In canonical form every pixel reads 0x00 or 0xFF (10_state.md R126). -/
theorem FrameBuffer.read_cases {fb : Cells} (h : FrameBuffer.wf fb = true) (p : Nat) :
    FrameBuffer.read fb p = 0x00 ∨ FrameBuffer.read fb p = 0xFF := by
  obtain ⟨hw, hv⟩ := FrameBuffer.wf_iff.1 h
  by_cases hp : ∃ e ∈ fb, e.1 = p
  · obtain ⟨e, he, rfl⟩ := hp
    exact .inr ((Cells.read_of_mem _ hw he).trans (hv e he))
  · exact .inl (Cells.read_eq_unlisted _ _ _ (fun e he hk => hp ⟨e, he, hk⟩))

/-- Writing 0x00 or 0xFF to a pixel of the screen keeps the frame buffer canonical. -/
theorem FrameBuffer.wf_write {fb : Cells} {p : Nat} {b : Byte} (h : FrameBuffer.wf fb = true) (hp : p < 2048)
    (hb : b = 0x00 ∨ b = 0xFF) : FrameBuffer.wf (FrameBuffer.write fb p b) = true := by
  obtain ⟨hw, hv⟩ := FrameBuffer.wf_iff.1 h
  refine FrameBuffer.wf_iff.2 ⟨Cells.wf_write _ hw hp, fun e he => ?_⟩
  have hne : e.2 ≠ FrameBuffer.unlisted e.1 := by
    have hwf := Cells.wf_write FrameBuffer.unlisted (b := b) hw hp
    simp only [Cells.wf, Bool.and_eq_true, List.all_eq_true, bne_iff_ne] at hwf
    exact (hwf.2 e he).2
  rcases Cells.mem_write _ he with rfl | he
  · rcases hb with rfl | rfl
    · exact absurd rfl hne
    · rfl
  · exact hv e he

/-- Flipping pixels of the screen keeps the frame buffer canonical. -/
theorem FrameBuffer.wf_flipPixels (targets : List (Nat × Nat)) (ht : ∀ q ∈ targets, pixelIndex q < 2048) :
    ∀ (fb : Cells) (hit : Bool), FrameBuffer.wf fb = true →
      FrameBuffer.wf (targets.foldl flipPixel (fb, hit)).1 = true := by
  induction targets with
  | nil => intro fb hit h; exact h
  | cons q rest ih =>
    intro fb hit h
    refine ih (fun q' hq' => ht q' (List.mem_cons_of_mem _ hq')) _ _ ?_
    refine FrameBuffer.wf_write h (ht q (List.mem_cons_self ..)) ?_
    rcases FrameBuffer.read_cases h (q.2 * fbWidth + q.1) with h0 | h0
    · right; rw [h0]; decide
    · left; rw [h0]; decide

end Sys2Proof.Machine
end

