-- ==== Sys2Proof/Laws/Exec.lean ====
section
/-! SUPPORT. What any completed or faulting instruction does to the fields no instruction writes, the shape of a draw, and
the rows of the opcode map. -/

namespace Sys2Proof.Machine

/-- The draw once its range check has passed (44_display.md R820). -/
theorem exec_drw_of_range {s : State} {x y : Reg} {n : Fin 16} (h : s.index.toNat + n.val ≤ 4096) :
    exec (.drw x y n) s =
      match edgeTargets s.params.drawEdge
        (spriteTargets (s.anchorX x) (s.anchorY y) 0 (s.spriteRows n.val)) with
      | none => .fault (.drawEdge (s.pc - 2) (encode (.drw x y n)) (s.anchorX x) (s.anchorY y))
      | some targets =>
        .next ((s.setFb (flipPixels s.fb targets).1).setFlag (flipPixels s.fb targets).2) := by
  simp only [exec, execDrw]
  rw [State.checkRange_eq_none.2 h, orFault_none]
  rfl

/-- A draw that completes has read inside memory, and leaves a frame buffer and a flag. -/
theorem exec_drw_next {s t : State} {x y : Reg} {n : Fin 16} (h : exec (.drw x y n) s = .next t) :
    s.index.toNat + n.val ≤ 4096 ∧ ∃ fb flag, t = (s.setFb fb).setFlag flag := by
  simp only [exec, execDrw] at h
  rw [orFault_eq_next] at h
  obtain ⟨h1, h2⟩ := h
  refine ⟨State.checkRange_eq_none.1 h1, ?_⟩
  split at h2
  · cases h2
  · cases h2
    exact ⟨_, _, rfl⟩

/-- No instruction writes the keys, the parameters, the status, the phase or the random byte (10_state.md R140). -/
theorem exec_keeps {i : Instr} {s t : State} (h : exec i s = .next t) :
    t.key = s.key ∧ t.params = s.params ∧ t.status = s.status ∧ t.randIn = s.randIn ∧ t.draws = s.draws ∧
      t.phase = s.phase := by
  cases i
  case drw x y n =>
    obtain ⟨-, fb, b, rfl⟩ := exec_drw_next h
    simp
  all_goals simp only [exec, execCls, execRet, execJp, execCall, execSeByte, execSneByte, execSeReg, execSneReg,
    execLdByte, execAddByte, execLdReg, execOrReg, execAndReg, execXorReg, execAddReg, execSub, execSubn, execShr,
    execShl, execLdI, execJpV0, execRnd, execSkp, execSknp, execLdFromDt, execLdKey, execLdDt, execLdSt, execAddI,
    execLdFont, execLdBcd, execStore, execLoad, orFault_eq_next, State.indexAdd, State.indexLoad] at h
  all_goals try (cases h; simp)
  all_goals try (split at h <;> cases h <;> simp)
  all_goals try (obtain ⟨-, -, h⟩ := h; cases h; simp)
  all_goals try (obtain ⟨-, h⟩ := h; cases h; simp)

/-- The record of an instruction's fault holds A and the instruction's opcode, and no shift faults (60_exceptions.md
R902). -/
theorem exec_fault_record {i : Instr} {s : State} {f : Fault} (h : exec i s = .fault f) :
    f.recordPc = s.pc - 2 ∧ f.recordOpc = some (encode i) ∧ (∀ x, i ≠ .shr x) ∧ ∀ x, i ≠ .shl x := by
  cases i
  case drw x y n =>
    simp only [exec, execDrw] at h
    rw [orFault_eq_fault] at h
    rcases h with h | ⟨-, h⟩
    · rw [State.checkRange_eq] at h
      split at h <;> cases h
      exact ⟨rfl, rfl, by simp, by simp⟩
    · split at h <;> cases h
      exact ⟨rfl, rfl, by simp, by simp⟩
  all_goals simp only [exec, execCls, execRet, execJp, execCall, execSeByte, execSneByte, execSeReg, execSneReg,
    execLdByte, execAddByte, execLdReg, execOrReg, execAndReg, execXorReg, execAddReg, execSub, execSubn, execShr,
    execShl, execLdI, execJpV0, execRnd, execSkp, execSknp, execLdFromDt, execLdKey, execLdDt, execLdSt, execAddI,
    execLdFont, execLdBcd, execStore, execLoad, orFault_eq_fault, State.indexAdd, State.indexLoad, State.checkRange,
    State.checkLowWrite] at h
  case ldBcd | store =>
    rcases h with h | ⟨-, h | ⟨-, h⟩⟩
    · split at h <;> cases h
      exact ⟨rfl, rfl, by simp, by simp⟩
    · split at h <;> cases h
      exact ⟨rfl, rfl, by simp, by simp⟩
    · cases h
  case load =>
    rcases h with h | ⟨-, h⟩
    · split at h <;> cases h
      exact ⟨rfl, rfl, by simp, by simp⟩
    · cases h
  all_goals first
    | cases h
    | (split at h <;> cases h <;> exact ⟨rfl, rfl, by simp, by simp⟩)

/-! ### Rows of the opcode map -/

/-- A row that fixes the major nibble. -/
theorem decodes_of_op {pat : Word} {mk : Word → Instr} (hmk : ∀ opc : Word, (fieldOp opc) = fieldOp pat →
    decode opc = some (mk opc)) : Decodes pat 0xF000 mk :=
  fun opc h => hmk opc (fieldOp_of_match h (by decide))

/-- A row that fixes the major and the last nibble. -/
theorem decodes_of_op_n {pat : Word} {mk : Word → Instr} (hmk : ∀ opc : Word, fieldOp opc = fieldOp pat →
    fieldN opc = fieldN pat → decode opc = some (mk opc)) : Decodes pat 0xF00F mk :=
  fun opc h => hmk opc (fieldOp_of_match h (by decide)) (fieldN_of_match h (by decide))

/-- A row that fixes the major nibble and the low byte. -/
theorem decodes_of_op_kk {pat : Word} {mk : Word → Instr} (hmk : ∀ opc : Word, fieldOp opc = fieldOp pat →
    fieldKk opc = fieldKk pat → decode opc = some (mk opc)) : Decodes pat 0xF0FF mk :=
  fun opc h => hmk opc (fieldOp_of_match h (by decide)) (fieldKk_of_match h (by decide))

end Sys2Proof.Machine
end

