-- ==== Sys2Proof/Laws/PerInstr.lean ====
section
/-! SUPPORT. Per instruction: the encoder's word lies in the instruction's own row of the opcode map. -/

namespace Sys2Proof.Laws.EncodedRow

/-- The word the encoder builds for `i` matches the row of `i` in the map of 30_encoding.md R310. -/
def Statement (i : Instr) : Prop := ∃ row, rowOf i = some row ∧ row.matchesOpc (encode i) = true

theorem matches_of_eq {i : Instr} {row : OpRow} (hr : rowOf i = some row) (h : encode i &&& row.mask = row.pat) :
    Statement i :=
  ⟨row, hr, by simp [OpRow.matchesOpc, h]⟩

/-- Rows that fix the major opcode alone. -/
theorem matches_major {i : Instr} {row : OpRow} (hr : rowOf i = some row) (hm : row.mask = 0xF000)
    (hop : fieldOp (encode i) = fieldOp row.pat) (hz : row.pat &&& 0x0FFF = 0) : Statement i := by
  have hx := fieldX_and row.pat 0x0FFF
  have hy := fieldY_and row.pat 0x0FFF
  have hn := fieldN_and row.pat 0x0FFF
  rw [hz] at hx hy hn
  refine matches_of_eq hr (and_eq_of_nibbles ?_ ?_ ?_ ?_)
  · rw [hm, hop]; exact nibble_and_ones _
  · rw [hm]; exact (nibble_and_zero _).trans (hx.trans (nibble_and_ones _))
  · rw [hm]; exact (nibble_and_zero _).trans (hy.trans (nibble_and_ones _))
  · rw [hm]; exact (nibble_and_zero _).trans (hn.trans (nibble_and_ones _))

/-- Rows that fix the major opcode and n. -/
theorem matches_minorN {i : Instr} {row : OpRow} (hr : rowOf i = some row) (hm : row.mask = 0xF00F)
    (hop : fieldOp (encode i) = fieldOp row.pat) (hn : fieldN (encode i) = fieldN row.pat)
    (hx : fieldX row.pat = 0) (hy : fieldY row.pat = 0) : Statement i := by
  refine matches_of_eq hr (and_eq_of_nibbles ?_ ?_ ?_ ?_)
  · rw [hm, hop]; exact nibble_and_ones _
  · rw [hm, hx]; exact nibble_and_zero _
  · rw [hm, hy]; exact nibble_and_zero _
  · rw [hm, hn]; exact nibble_and_ones _

/-- Rows that fix the major opcode and kk. -/
theorem matches_minorKk {i : Instr} {row : OpRow} (hr : rowOf i = some row) (hm : row.mask = 0xF0FF)
    (hop : fieldOp (encode i) = fieldOp row.pat) (hy : fieldY (encode i) = fieldY row.pat)
    (hn : fieldN (encode i) = fieldN row.pat) (hx : fieldX row.pat = 0) : Statement i := by
  refine matches_of_eq hr (and_eq_of_nibbles ?_ ?_ ?_ ?_)
  · rw [hm, hop]; exact nibble_and_ones _
  · rw [hm, hx]; exact nibble_and_zero _
  · rw [hm, hy]; exact nibble_and_ones _
  · rw [hm, hn]; exact nibble_and_ones _

theorem cls : Statement .cls :=
  matches_of_eq (row := ⟨"CLS", 0x00E0, 0xFFFF⟩) rfl (by decide)

theorem ret : Statement .ret :=
  matches_of_eq (row := ⟨"RET", 0x00EE, 0xFFFF⟩) rfl (by decide)

theorem jp (nnn : BitVec 12) : Statement (.jp nnn) :=
  matches_major (row := ⟨"JP_nnn", 0x1000, 0xF000⟩) rfl rfl (by simp [encode]; decide) (by decide)

theorem call (nnn : BitVec 12) : Statement (.call nnn) :=
  matches_major (row := ⟨"CALL_nnn", 0x2000, 0xF000⟩) rfl rfl (by simp [encode]; decide) (by decide)

theorem seByte (x : Reg) (kk : Byte) : Statement (.seByte x kk) :=
  matches_major (row := ⟨"SE_Vx__kk", 0x3000, 0xF000⟩) rfl rfl (by simp [encode]; decide) (by decide)

theorem sneByte (x : Reg) (kk : Byte) : Statement (.sneByte x kk) :=
  matches_major (row := ⟨"SNE_Vx__kk", 0x4000, 0xF000⟩) rfl rfl (by simp [encode]; decide) (by decide)

theorem seReg (x y : Reg) : Statement (.seReg x y) :=
  matches_minorN (row := ⟨"SE_Vx__Vy", 0x5000, 0xF00F⟩) rfl rfl (by simp [encode]; decide) (by simp [encode]; decide) (by decide) (by decide)

theorem ldByte (x : Reg) (kk : Byte) : Statement (.ldByte x kk) :=
  matches_major (row := ⟨"LD_Vx__kk", 0x6000, 0xF000⟩) rfl rfl (by simp [encode]; decide) (by decide)

theorem addByte (x : Reg) (kk : Byte) : Statement (.addByte x kk) :=
  matches_major (row := ⟨"ADD_Vx__kk", 0x7000, 0xF000⟩) rfl rfl (by simp [encode]; decide) (by decide)

theorem ldReg (x y : Reg) : Statement (.ldReg x y) :=
  matches_minorN (row := ⟨"LD_Vx__Vy", 0x8000, 0xF00F⟩) rfl rfl (by simp [encode]; decide) (by simp [encode]; decide) (by decide) (by decide)

theorem orReg (x y : Reg) : Statement (.orReg x y) :=
  matches_minorN (row := ⟨"OR_Vx__Vy", 0x8001, 0xF00F⟩) rfl rfl (by simp [encode]; decide) (by simp [encode]; decide) (by decide) (by decide)

theorem andReg (x y : Reg) : Statement (.andReg x y) :=
  matches_minorN (row := ⟨"AND_Vx__Vy", 0x8002, 0xF00F⟩) rfl rfl (by simp [encode]; decide) (by simp [encode]; decide) (by decide) (by decide)

theorem xorReg (x y : Reg) : Statement (.xorReg x y) :=
  matches_minorN (row := ⟨"XOR_Vx__Vy", 0x8003, 0xF00F⟩) rfl rfl (by simp [encode]; decide) (by simp [encode]; decide) (by decide) (by decide)

theorem addReg (x y : Reg) : Statement (.addReg x y) :=
  matches_minorN (row := ⟨"ADD_Vx__Vy", 0x8004, 0xF00F⟩) rfl rfl (by simp [encode]; decide) (by simp [encode]; decide) (by decide) (by decide)

theorem sub (x y : Reg) : Statement (.sub x y) :=
  matches_minorN (row := ⟨"SUB_Vx__Vy", 0x8005, 0xF00F⟩) rfl rfl (by simp [encode]; decide) (by simp [encode]; decide) (by decide) (by decide)

theorem shr (x : Reg) : Statement (.shr x) :=
  matches_minorN (row := ⟨"SHR_Vx", 0x8006, 0xF00F⟩) rfl rfl (by simp [encode]; decide) (by simp [encode]; decide) (by decide) (by decide)

theorem subn (x y : Reg) : Statement (.subn x y) :=
  matches_minorN (row := ⟨"SUBN_Vx__Vy", 0x8007, 0xF00F⟩) rfl rfl (by simp [encode]; decide) (by simp [encode]; decide) (by decide) (by decide)

theorem shl (x : Reg) : Statement (.shl x) :=
  matches_minorN (row := ⟨"SHL_Vx", 0x800E, 0xF00F⟩) rfl rfl (by simp [encode]; decide) (by simp [encode]; decide) (by decide) (by decide)

theorem sneReg (x y : Reg) : Statement (.sneReg x y) :=
  matches_minorN (row := ⟨"SNE_Vx__Vy", 0x9000, 0xF00F⟩) rfl rfl (by simp [encode]; decide) (by simp [encode]; decide) (by decide) (by decide)

theorem ldI (nnn : BitVec 12) : Statement (.ldI nnn) :=
  matches_major (row := ⟨"LD_I__nnn", 0xA000, 0xF000⟩) rfl rfl (by simp [encode]; decide) (by decide)

theorem jpV0 (nnn : BitVec 12) : Statement (.jpV0 nnn) :=
  matches_major (row := ⟨"JP_V0__nnn", 0xB000, 0xF000⟩) rfl rfl (by simp [encode]; decide) (by decide)

theorem rnd (x : Reg) (kk : Byte) : Statement (.rnd x kk) :=
  matches_major (row := ⟨"RND_Vx__kk", 0xC000, 0xF000⟩) rfl rfl (by simp [encode]; decide) (by decide)

theorem drw (x y : Reg) (n : Fin 16) : Statement (.drw x y n) :=
  matches_major (row := ⟨"DRW_Vx__Vy__n", 0xD000, 0xF000⟩) rfl rfl (by simp [encode]; decide) (by decide)

theorem skp (x : Reg) : Statement (.skp x) :=
  matches_minorKk (row := ⟨"SKP_Vx", 0xE09E, 0xF0FF⟩) rfl rfl (by simp [encode]; decide) (by simp [encode]; decide)
    (by simp [encode]; decide) (by decide)

theorem sknp (x : Reg) : Statement (.sknp x) :=
  matches_minorKk (row := ⟨"SKNP_Vx", 0xE0A1, 0xF0FF⟩) rfl rfl (by simp [encode]; decide) (by simp [encode]; decide)
    (by simp [encode]; decide) (by decide)

theorem ldFromDt (x : Reg) : Statement (.ldFromDt x) :=
  matches_minorKk (row := ⟨"LD_Vx__DT", 0xF007, 0xF0FF⟩) rfl rfl (by simp [encode]; decide) (by simp [encode]; decide)
    (by simp [encode]; decide) (by decide)

theorem ldKey (x : Reg) : Statement (.ldKey x) :=
  matches_minorKk (row := ⟨"LD_Vx__K", 0xF00A, 0xF0FF⟩) rfl rfl (by simp [encode]; decide) (by simp [encode]; decide)
    (by simp [encode]; decide) (by decide)

theorem ldDt (x : Reg) : Statement (.ldDt x) :=
  matches_minorKk (row := ⟨"LD_DT__Vx", 0xF015, 0xF0FF⟩) rfl rfl (by simp [encode]; decide) (by simp [encode]; decide)
    (by simp [encode]; decide) (by decide)

theorem ldSt (x : Reg) : Statement (.ldSt x) :=
  matches_minorKk (row := ⟨"LD_ST__Vx", 0xF018, 0xF0FF⟩) rfl rfl (by simp [encode]; decide) (by simp [encode]; decide)
    (by simp [encode]; decide) (by decide)

theorem addI (x : Reg) : Statement (.addI x) :=
  matches_minorKk (row := ⟨"ADD_I__Vx", 0xF01E, 0xF0FF⟩) rfl rfl (by simp [encode]; decide) (by simp [encode]; decide)
    (by simp [encode]; decide) (by decide)

theorem ldFont (x : Reg) : Statement (.ldFont x) :=
  matches_minorKk (row := ⟨"LD_F__Vx", 0xF029, 0xF0FF⟩) rfl rfl (by simp [encode]; decide) (by simp [encode]; decide)
    (by simp [encode]; decide) (by decide)

theorem ldBcd (x : Reg) : Statement (.ldBcd x) :=
  matches_minorKk (row := ⟨"LD_B__Vx", 0xF033, 0xF0FF⟩) rfl rfl (by simp [encode]; decide) (by simp [encode]; decide)
    (by simp [encode]; decide) (by decide)

theorem store (x : Reg) : Statement (.store x) :=
  matches_minorKk (row := ⟨"LD__I___Vx", 0xF055, 0xF0FF⟩) rfl rfl (by simp [encode]; decide) (by simp [encode]; decide)
    (by simp [encode]; decide) (by decide)

theorem load (x : Reg) : Statement (.load x) :=
  matches_minorKk (row := ⟨"LD_Vx___I", 0xF065, 0xF0FF⟩) rfl rfl (by simp [encode]; decide) (by simp [encode]; decide)
    (by simp [encode]; decide) (by decide)

end Sys2Proof.Laws.EncodedRow
end

