-- ==== Sys2Proof/Tests/Slice0.lean ====
section
/-! SUPPORT. The model's own tests: expected results from 95_test_vectors.md (the vector is named) or worked by hand from
the cited rule, each on one step of a small state. After them the witnesses: for every statement of
Sys2Proof/Certificates/Slice0/Obligations.lean that has hypotheses, states and operands that meet them all. -/

namespace Sys2Proof.Machine.Test

/-! ### Helpers -/

/-- One step of `s` with the opcode `w` stored at its pc. -/
def run (w : Nat) (s : State) : StepResult := step (s.withFetchWord 16 w)

/-- The result is a next state that passes. -/
def passes (r : StepResult) (p : State → Bool) : Bool :=
  match r with
  | .next t => p t
  | .fault _ => false
  | .refused _ => false

/-- The record of a result that is a fault. -/
def faultOf (r : StepResult) : Option Fault :=
  match r with
  | .next _ => none
  | .fault f => some f
  | .refused _ => none

/-- The reset state with the registers listed set. -/
def withRegs (regs : List (Reg × Byte)) : State := regs.foldl (fun s p => s.setV p.1 p.2) State.reset

/-- The reset state with I and the bytes there set, and V1, V2. -/
def sprite (edge : DrawEdge) (index : Word) (bytes : List Byte) (v1 v2 : Byte) : State :=
  let s := (withRegs [(1, v1), (2, v2)]).memWriteAll index.toNat bytes
  { s with index := index, params := { s.params with drawEdge := edge } }

/-- The reset state with LOW_WRITE = `write`. -/
def lowAdmitted : State :=
  { State.reset with params := { State.reset.params with lowWrite := .write } }

/-- The pixels of the listed places are exactly the lit ones of the rows 0 to 2 (which every vector here stays in). -/
def litRows (t : State) (places : List (Nat × Nat)) : Bool :=
  (List.range 64).all fun px => (List.range 3).all fun py =>
    t.pixel px py == if places.contains (px, py) then 0xFF else 0x00

/-- A key pressed. -/
def press (s : State) (k : Fin 16) : State := s.setKey k true

/-! ### Well-formedness: an ill-formed term for each check, refused -/

/-- R1011: a buffer of no bytes. -/
theorem test_rom_empty_refused : romWellFormed [] = false := by decide

/-- R1011: a buffer of 3585 bytes; 3584 are well-formed (S3). -/
theorem test_rom_length_limits : romWellFormed (List.replicate 3585 0) = false ∧
    romWellFormed (List.replicate 3584 0) = true ∧ romWellFormed [0] = true := by
  simp only [romWellFormed, List.length_replicate]
  decide

/-- Every term of the instruction type is well-formed, because its fields admit no other value (30_encoding.md R301). -/
theorem test_no_ill_formed_instruction (i : Instr) : i.wellFormed = true := by cases i <;> rfl

/-- Memory that is not in canonical form: out of order, a listed byte that is what an unlisted address reads as (zero, and
a font byte), an address past the end. -/
theorem test_memory_form_refused :
    Memory.wf Config.defaultFont [(0x300, 1), (0x200, 1)] = false ∧ Memory.wf Config.defaultFont [(0x300, 0)] = false ∧
    Memory.wf Config.defaultFont [(0x050, 0xF0)] = false ∧ Memory.wf Config.defaultFont [(0x1000, 1)] = false ∧
    Memory.wf Config.defaultFont [(0x050, 0), (0x300, 1)] = true := by decide

/-- A frame buffer that is not in canonical form: an off pixel listed, a value other than 0x00 and 0xFF, a pixel past the
end. -/
theorem test_frame_buffer_form_refused : FrameBuffer.wf [(0, 0x00)] = false ∧ FrameBuffer.wf [(0, 0x01)] = false ∧
    FrameBuffer.wf [(2048, 0xFF)] = false ∧ FrameBuffer.wf [(2047, 0xFF)] = true := by decide

/-! ### Decoding: each word written out from its row of 30_encoding.md R310 -/

/-- Rows 1 to 7, 19 and 21: 00E0, 00EE, 1nnn, 2nnn, 3xkk, 4xkk, 5xy0, 9xy0, Bnnn. -/
theorem test_decode_control_flow :
    decode 0b0000000011100000 = some .cls ∧ decode 0b0000000011101110 = some .ret ∧
    decode 0b0001101010111100 = some (.jp 0xABC) ∧ decode 0b0010000000000001 = some (.call 0x001) ∧
    decode 0b0011111110000001 = some (.seByte 15 0x81) ∧ decode 0b0100100000010010 = some (.sneByte 8 0x12) ∧
    decode 0b0101000100100000 = some (.seReg 1 2) ∧ decode 0b1001001000010000 = some (.sneReg 2 1) ∧
    decode 0b1011000100100011 = some (.jpV0 0x123) := by decide

/-- Rows 8 to 18 and 22: 6xkk, 7xkk, 8xy0 to 8xy7, 8xyE (y ignored by 8xy6 and 8xyE), Cxkk. -/
theorem test_decode_alu :
    decode 0b0110101010101011 = some (.ldByte 10 0xAB) ∧ decode 0b0111111100000010 = some (.addByte 15 0x02) ∧
    decode 0b1000000100100000 = some (.ldReg 1 2) ∧ decode 0b1000000100100001 = some (.orReg 1 2) ∧
    decode 0b1000000100100010 = some (.andReg 1 2) ∧ decode 0b1000000100100011 = some (.xorReg 1 2) ∧
    decode 0b1000000100100100 = some (.addReg 1 2) ∧ decode 0b1000000100100101 = some (.sub 1 2) ∧
    decode 0b1000000011100110 = some (.shr 0) ∧ decode 0b1000000100100111 = some (.subn 1 2) ∧
    decode 0b1000000110011110 = some (.shl 1) ∧ decode 0b1100001100001111 = some (.rnd 3 0x0F) := by decide

/-- Rows 20, 23 to 34: Annn, Dxyn, Ex9E, ExA1, Fx07, Fx0A, Fx15, Fx18, Fx1E, Fx29, Fx33, Fx55, Fx65. -/
theorem test_decode_index_display_keys :
    decode 0b1010000100100011 = some (.ldI 0x123) ∧ decode 0b1101000100100101 = some (.drw 1 2 5) ∧
    decode 0b1110000110011110 = some (.skp 1) ∧ decode 0b1110000110100001 = some (.sknp 1) ∧
    decode 0b1111000100000111 = some (.ldFromDt 1) ∧ decode 0b1111000100001010 = some (.ldKey 1) ∧
    decode 0b1111000000010101 = some (.ldDt 0) ∧ decode 0b1111000000011000 = some (.ldSt 0) ∧
    decode 0b1111000100011110 = some (.addI 1) ∧ decode 0b1111000000101001 = some (.ldFont 0) ∧
    decode 0b1111000100110011 = some (.ldBcd 1) ∧ decode 0b1111111101010101 = some (.store 15) ∧
    decode 0b1111001001100101 = some (.load 2) := by decide

/-- Opcodes next to a row's are refused by name (section 2.1), and a single byte is too. -/
theorem test_decode_refusals :
    decodeBytes [0x51, 0x21] = .error (.illegalOpcode 0x5121) ∧ decodeBytes [0x00, 0xE1] = .error (.illegalOpcode 0x00E1) ∧
    decodeBytes [0x81, 0x28] = .error (.illegalOpcode 0x8128) ∧ decodeBytes [0xF1, 0x56] = .error (.illegalOpcode 0xF156) ∧
    decodeBytes [0xE1] = .error (.truncated 1) := by decide

/-- The fields of 0x8AB4 (S4). -/
theorem test_fields : fieldOp 0x8AB4 = 8 ∧ fieldX 0x8AB4 = 10 ∧ fieldY 0x8AB4 = 11 ∧ fieldN 0x8AB4 = 4 ∧
    fieldKk 0x8AB4 = 0xB4 ∧ fieldNnn 0x8AB4 = 0xAB4 := by decide

/-- The table's numbering: bits 15..8 are the byte at the lower address. -/
theorem test_table_word : decodeTableWord 16 0x8AB4 = some (.addReg 10 11) ∧ decodeTableWord 16 0x0124 = none := by decide

/-- R340 and P2's listing: lines as the spec writes them, and the opcodes beside them. -/
theorem test_assembler : (asmLine (.ldByte 1 5)).text = "LD V1, 5" ∧ (asmLine (.load 2)).text = "LD V2, [I]" ∧
    (assemble ⟨.call, [.num 0x20A]⟩).map encode = some 0x220A ∧
    (assemble ⟨.ld, [.b, .reg 10]⟩).map encode = some 0xFA33 := by decide

/-- A number too wide for its field, and operands of no row, are no line. -/
theorem test_assembler_refusals : assemble ⟨.se, [.reg 3, .num 256]⟩ = none ∧ assemble ⟨.jp, [.reg 1, .num 0]⟩ = none := by
  decide

/-! ### Control flow (section 2.2) -/

/-- C1, C16 and a jump to the instruction's own address. -/
theorem test_jp : passes (run 0x1234 State.reset) (fun t => t.pc == 0x234) = true ∧
    passes (run 0x1201 State.reset) (fun t => t.pc == 0x201) = true ∧
    passes (run 0x1200 State.reset) (fun t => t.pc == 0x200) = true := by decide

/-- C2. -/
theorem test_call : passes (run 0x2300 State.reset)
    (fun t => t.stack[0] == 0x202 && t.sp == 1 && t.pc == 0x300) = true := by decide

/-- C5: the seventeenth call. -/
theorem test_call_overflow : faultOf (run 0x2300 { State.reset with sp := 16 }) =
    some (.stackOverflow 0x200 0x2300) := by decide

/-- C3: the popped slot is kept. -/
theorem test_ret : passes (run 0x00EE { State.reset with pc := 0x300, sp := 1, stack := State.reset.stack.set 0 0x202 })
    (fun t => t.pc == 0x202 && t.sp == 0 && t.stack[0] == 0x202) = true := by decide

/-- C4: the state and the timers are as before, only the status changes. -/
theorem test_ret_underflow :
    transact ({ State.reset with pc := 0x300, dt := 5 }.withFetchWord 16 0x00EE) (.step 0) =
      ({ State.reset with pc := 0x300, dt := 5, status := .faulted (.stackUnderflow 0x300 0x00EE) }.withFetchWord 16 0x00EE,
        .fault (.stackUnderflow 0x300 0x00EE)) := by decide

/-- C6 and C7. -/
theorem test_se_byte : passes (run 0x3310 (withRegs [(3, 0x10)])) (fun t => t.pc == 0x204) = true ∧
    passes (run 0x3310 (withRegs [(3, 0x11)])) (fun t => t.pc == 0x202) = true := by decide

/-- C13: a skip past the end, whose next fetch faults. -/
theorem test_skip_past_end : passes (run 0x3100 { State.reset with pc := 0xFFC }) (fun t => t.pc == 0x1000 &&
    faultOf (step t) == some (.fetchRange 0x1000)) = true := by decide

/-- C8, and R445's example of no skip. -/
theorem test_sne_byte : passes (run 0x4310 (withRegs [(3, 0x11)])) (fun t => t.pc == 0x204) = true ∧
    passes (run 0x4310 (withRegs [(3, 0x10)])) (fun t => t.pc == 0x202) = true := by decide

/-- C9, and two registers that differ. -/
theorem test_se_reg : passes (run 0x5110 (withRegs [(1, 7)])) (fun t => t.pc == 0x204) = true ∧
    passes (run 0x5120 (withRegs [(1, 7), (2, 8)])) (fun t => t.pc == 0x202) = true := by decide

/-- C10, and R455's example. -/
theorem test_sne_reg : passes (run 0x9110 (withRegs [(1, 7)])) (fun t => t.pc == 0x202) = true ∧
    passes (run 0x9120 (withRegs [(1, 7), (2, 8)])) (fun t => t.pc == 0x204) = true := by decide

/-- C11: V0 is added, not V2. -/
theorem test_jp_v0 : passes (run 0xB2F0 (withRegs [(0, 0x10), (2, 0x55)])) (fun t => t.pc == 0x300) = true := by decide

/-- C12: past the end of memory with no mod, and the next fetch faults. -/
theorem test_jp_v0_past_end : passes (run 0xBFFF (withRegs [(0, 0xFF)]))
    (fun t => t.pc == 0x10FE && faultOf (step t) == some (.fetchRange 0x10FE)) = true := by decide

/-! ### Registers and ALU (section 2.3) -/

/-- A1. -/
theorem test_ld_byte : passes (run 0x6AAB State.reset) (fun t => t.getV 10 == 0xAB && t.getV 11 == 0) = true := by decide

/-- A2 and A3: no flag. -/
theorem test_add_byte :
    passes (run 0x7101 (withRegs [(1, 0xFF), (15, 0x55)])) (fun t => t.getV 1 == 0 && t.getV 15 == 0x55) = true ∧
    passes (run 0x7F02 (withRegs [(15, 0xFF)])) (fun t => t.getV 15 == 1) = true := by decide

/-- A4. -/
theorem test_ld_reg : passes (run 0x8120 (withRegs [(2, 0x3C)])) (fun t => t.getV 1 == 0x3C && t.getV 2 == 0x3C) = true := by
  decide

/-- A5: VF is kept. -/
theorem test_or : passes (run 0x8121 (withRegs [(1, 0xF0), (2, 0x0F), (15, 0x55)]))
    (fun t => t.getV 1 == 0xFF && t.getV 15 == 0x55) = true := by decide

/-- A6. -/
theorem test_and : passes (run 0x8122 (withRegs [(1, 0xF0), (2, 0x3C)])) (fun t => t.getV 1 == 0x30) = true := by decide

/-- A7 and A8. -/
theorem test_xor : passes (run 0x8123 (withRegs [(1, 0xF0), (2, 0x3C)])) (fun t => t.getV 1 == 0xCC) = true ∧
    passes (run 0x8113 (withRegs [(1, 0xF0)])) (fun t => t.getV 1 == 0) = true := by decide

/-- A9, A11 and A12: y = 15 reads VF before the flag is written. -/
theorem test_add_reg :
    passes (run 0x8124 (withRegs [(1, 0xFF), (2, 1)])) (fun t => t.getV 1 == 0 && t.getV 15 == 1) = true ∧
    passes (run 0x81F4 (withRegs [(1, 0x10), (15, 5)])) (fun t => t.getV 1 == 0x15 && t.getV 15 == 0) = true ∧
    passes (run 0x8334 (withRegs [(3, 0x80)])) (fun t => t.getV 3 == 0 && t.getV 15 == 1) = true := by decide

/-- A10: with x = 15 the carry is what VF keeps. -/
theorem test_add_reg_vf : passes (run 0x8F24 (withRegs [(15, 0xC8), (2, 0x64)])) (fun t => t.getV 15 == 1) = true := by
  decide

/-- A13 and S6. -/
theorem test_sub :
    passes (run 0x8125 (withRegs [(1, 3), (2, 5)])) (fun t => t.getV 1 == 0xFE && t.getV 15 == 0) = true ∧
    passes (run 0x8125 (withRegs [(1, 7), (2, 7)])) (fun t => t.getV 1 == 0 && t.getV 15 == 1) = true := by decide

/-- A14 and A15. -/
theorem test_sub_vf : passes (run 0x8F25 (withRegs [(15, 0x10), (2, 0x20)])) (fun t => t.getV 15 == 0) = true ∧
    passes (run 0x8FF5 (withRegs [(15, 0x33)])) (fun t => t.getV 15 == 1) = true := by decide

/-- A16 and S6. -/
theorem test_subn :
    passes (run 0x8127 (withRegs [(1, 5), (2, 3)])) (fun t => t.getV 1 == 0xFE && t.getV 15 == 0) = true ∧
    passes (run 0x8127 (withRegs [(1, 3), (2, 5)])) (fun t => t.getV 1 == 2 && t.getV 15 == 1) = true := by decide

/-- A17 and A18: the y field is ignored. -/
theorem test_shr :
    passes (run 0x8106 (withRegs [(1, 0x80)])) (fun t => t.getV 1 == 0x40 && t.getV 15 == 0) = true ∧
    passes (run 0x8196 (withRegs [(1, 5), (9, 0x77)]))
      (fun t => t.getV 1 == 2 && t.getV 15 == 1 && t.getV 9 == 0x77) = true := by decide

/-- A19. -/
theorem test_shr_vf : passes (run 0x8F06 (withRegs [(15, 3)])) (fun t => t.getV 15 == 0) = true := by decide

/-- A20 and S7. -/
theorem test_shl : passes (run 0x810E (withRegs [(1, 0x7F)])) (fun t => t.getV 1 == 0xFE && t.getV 15 == 0) = true ∧
    passes (run 0x810E (withRegs [(1, 0x81)])) (fun t => t.getV 1 == 2 && t.getV 15 == 1) = true := by decide

/-- A21 and A22. -/
theorem test_shl_vf : passes (run 0x8F0E (withRegs [(15, 0x80)])) (fun t => t.getV 15 == 2) = true ∧
    passes (run 0x8F0E (withRegs [(15, 0x7F)])) (fun t => t.getV 15 == 0) = true := by decide

/-- A23 to A25. -/
theorem test_rnd : passes (run 0xC30F { State.reset with randIn := some 0xA7 }) (fun t => t.getV 3 == 0x07) = true ∧
    passes (run 0xC300 { State.reset with randIn := some 0xA7 }) (fun t => t.getV 3 == 0) = true ∧
    passes (run 0xC3FF { State.reset with randIn := some 0xA7 })
      (fun t => t.getV 3 == 0xA7 && t.randIn.isNone) = true := by decide

/-! ### Index register and memory (section 2.4) -/

/-- M1. -/
theorem test_ld_i : passes (run 0xA123 State.reset) (fun t => t.index == 0x123) = true := by decide

/-- M2 and M3: no flag, and no check against 0xFFF. -/
theorem test_add_i :
    passes (run 0xF11E { withRegs [(1, 0xFF)] with index := 0x100 }) (fun t => t.index == 0x1FF && t.getV 15 == 0) = true ∧
    passes (run 0xF21E { withRegs [(2, 5)] with index := 0xFFE }) (fun t => t.index == 0x1003) = true := by decide

/-- M5. -/
theorem test_add_i_overflow : faultOf (run 0xF11E { withRegs [(1, 0x20)] with index := 0xFFF0 }) =
    some (.indexOverflow 0x200 0xF11E 0x10010) := by decide

/-- M6, four of its values. -/
theorem test_ld_font : passes (run 0xF029 (withRegs [(0, 0x0A)])) (fun t => t.index == 0x082) = true ∧
    passes (run 0xF029 (withRegs [(0, 0x0F)])) (fun t => t.index == 0x09B) = true ∧
    passes (run 0xF029 (withRegs [(0, 0x10)])) (fun t => t.index == 0x0A0) = true ∧
    passes (run 0xF029 (withRegs [(0, 0xFF)])) (fun t => t.index == 0x54B) = true := by decide

/-- M7, M8 and M11. -/
theorem test_ld_bcd :
    passes (run 0xF133 { withRegs [(1, 156)] with index := 0x300 })
      (fun t => t.memRead 0x300 == 1 && t.memRead 0x301 == 5 && t.memRead 0x302 == 6 && t.index == 0x300) = true ∧
    passes (run 0xF133 { withRegs [(1, 123)] with index := 0xFFD })
      (fun t => t.memRead 0xFFD == 1 && t.memRead 0xFFE == 2 && t.memRead 0xFFF == 3) = true ∧
    passes (run 0xF133 { (lowAdmitted.setV 1 42) with index := 0x100 })
      (fun t => t.memRead 0x100 == 0 && t.memRead 0x101 == 4 && t.memRead 0x102 == 2) = true := by decide

/-- M9 and M10. -/
theorem test_ld_bcd_faults :
    faultOf (run 0xF133 { State.reset with index := 0xFFE }) = some (.memoryRange 0x200 0xF133 0xFFE 3) ∧
    faultOf (run 0xF133 { State.reset with index := 0x1FF }) = some (.lowWrite 0x200 0xF133 0x1FF 3) := by decide

/-- M12 and M13. -/
theorem test_store :
    passes (run 0xF055 { withRegs [(0, 0x11), (1, 0x22)] with index := 0x300 })
      (fun t => t.memRead 0x300 == 0x11 && t.memRead 0x301 == 0 && t.index == 0x300) = true ∧
    passes (run 0xFF55 { State.reset with index := 0xFF0, v := Vector.ofFn (fun i => BitVec.ofNat 8 i.val) })
      (fun t => (List.range 16).all (fun k => t.memRead (0xFF0 + k) == BitVec.ofNat 8 k) &&
        Memory.wf t.params.font t.mem) = true := by decide

/-- M14. -/
theorem test_store_range : faultOf (run 0xFF55 { State.reset with index := 0xFF1 }) =
    some (.memoryRange 0x200 0xFF55 0xFF1 16) := by decide

/-- M15 and M16. -/
theorem test_load :
    passes (run 0xF265 { withRegs [(3, 0x77)] with index := 0x050 })
      (fun t => t.getV 0 == 0xF0 && t.getV 1 == 0x90 && t.getV 2 == 0x90 && t.getV 3 == 0x77 && t.index == 0x050) = true ∧
    passes (run 0xFF65 { State.reset.memWrite 0x30F 0x5A with index := 0x300 }) (fun t => t.getV 15 == 0x5A) = true := by
  decide

/-- M4. -/
theorem test_load_range : faultOf (run 0xF065 { State.reset with index := 0x1003 }) =
    some (.memoryRange 0x200 0xF065 0x1003 1) := by decide

/-! ### Timers and keypad (section 2.5) -/

/-- K3. -/
theorem test_ld_from_dt : passes (run 0xF107 { State.reset with dt := 4 }) (fun t => t.getV 1 == 4 && t.dt == 3) = true := by
  decide

/-- K1 and K2. -/
theorem test_ld_dt : passes (run 0xF015 (withRegs [(0, 5)])) (fun t => t.dt == 4) = true ∧
    passes (run 0xF015 { State.reset with dt := 9 }) (fun t => t.dt == 0) = true := by decide

/-- K5 and K6. -/
theorem test_ld_st : passes (run 0xF018 (withRegs [(0, 1)])) (fun t => t.st == 0) = true ∧
    passes (run 0xF018 { withRegs [(0, 2)] with dt := 9 }) (fun t => t.st == 1 && t.dt == 8) = true := by decide

/-- K7 and K8. -/
theorem test_skp : passes (run 0xE59E (press (withRegs [(5, 0x0C)]) 12)) (fun t => t.pc == 0x204) = true ∧
    passes (run 0xE59E (withRegs [(5, 0x0C)])) (fun t => t.pc == 0x202) = true := by decide

/-- K9. -/
theorem test_skp_range : faultOf (run 0xE59E (withRegs [(5, 0x10)])) = some (.keyRange 0x200 0xE59E 0x10) := by decide

/-- K11, and the same key down. -/
theorem test_sknp : passes (run 0xE5A1 (withRegs [(5, 0x0C)])) (fun t => t.pc == 0x204) = true ∧
    passes (run 0xE5A1 (press (withRegs [(5, 0x0C)]) 12)) (fun t => t.pc == 0x202) = true := by decide

/-- K10. -/
theorem test_sknp_range : faultOf (run 0xE5A1 (withRegs [(5, 0xFF)])) = some (.keyRange 0x200 0xE5A1 0xFF) := by decide

/-- K12: the wait. -/
theorem test_ld_key_waits : passes (run 0xF20A { withRegs [(2, 0x99)] with pc := 0x206, dt := 3 })
    (fun t => t.pc == 0x206 && t.getV 2 == 0x99 && t.dt == 2) = true := by decide

/-- K13 to K15. -/
theorem test_ld_key :
    passes (run 0xF20A (press (press { State.reset with pc := 0x206 } 7) 3)) (fun t => t.getV 2 == 3 && t.pc == 0x208) = true ∧
    passes (run 0xF20A (press State.reset 15)) (fun t => t.getV 2 == 0x0F) = true ∧
    passes (run 0xF20A (press (press (withRegs [(2, 0x99)]) 15) 0)) (fun t => t.getV 2 == 0) = true := by decide

/-! ### Display (section 2.6) -/

/-- G1: every pixel of a screen with lit pixels, and VF kept. -/
theorem test_cls : passes (run 0x00E0 { withRegs [(15, 7)] with fb := [(0, 0xFF), (2047, 0xFF)] })
    (fun t => t.fb == [] && t.pixel 63 31 == 0 && t.getV 15 == 7) = true := by decide

/-- G4, G6 and G13: the anchor is taken modulo (64, 32) and read before VF is written. -/
theorem test_drw :
    passes (run 0xD121 (sprite .clip 0x300 [0xFF] 0 0))
      (fun t => litRows t [(0, 0), (1, 0), (2, 0), (3, 0), (4, 0), (5, 0), (6, 0), (7, 0)] && t.getV 15 == 0) = true ∧
    passes (run 0xD121 (sprite .clip 0x300 [0x80] 66 33)) (fun t => litRows t [(2, 1)]) = true ∧
    passes (run 0xDF21 ((sprite .clip 0x300 [0x80] 0 0).setV 15 5))
      (fun t => litRows t [(5, 0)] && t.getV 15 == 0) = true := by decide

/-- G7, G8 and G9: the three values of DRAW_EDGE. -/
theorem test_drw_edge :
    passes (run 0xD121 (sprite .clip 0x300 [0xFF] 60 0)) (fun t => litRows t [(60, 0), (61, 0), (62, 0), (63, 0)]) = true ∧
    passes (run 0xD121 (sprite .wrap 0x300 [0xFF] 60 0))
      (fun t => litRows t [(60, 0), (61, 0), (62, 0), (63, 0), (0, 0), (1, 0), (2, 0), (3, 0)] && t.getV 15 == 0) = true ∧
    faultOf (run 0xD121 (sprite .fault 0x300 [0xFF] 60 0)) = some (.drawEdge 0x200 0xD121 60 0) := by decide

/-- G11, G12 and G16: the collision. -/
theorem test_drw_collision :
    passes (run 0xD121 { sprite .clip 0x300 [0x80] 0 0 with fb := [(0, 0xFF)] })
      (fun t => litRows t [] && t.getV 15 == 1) = true ∧
    passes (run 0xD121 { sprite .clip 0x300 [0x40] 0 0 with fb := [(0, 0xFF)] })
      (fun t => litRows t [(0, 0), (1, 0)] && t.getV 15 == 0) = true ∧
    passes (run 0xD121 { sprite .clip 0x300 [0xC0] 63 0 with fb := [(63, 0xFF)] })
      (fun t => litRows t [] && t.getV 15 == 1) = true := by decide

/-- G2, G3, G14 and G15: no row, and the range check. -/
theorem test_drw_range :
    passes (run 0xD120 ((sprite .clip 0x300 [0xFF] 0 0).setV 15 7)) (fun t => litRows t [] && t.getV 15 == 0) = true ∧
    faultOf (run 0xD120 { State.reset with index := 0x1001 }) = some (.memoryRange 0x200 0xD120 0x1001 0) ∧
    passes (run 0xD123 { State.reset with index := 0xFFD }) (fun t => t.getV 15 == 0) = true ∧
    faultOf (run 0xD123 { State.reset with index := 0xFFE }) = some (.memoryRange 0x200 0xD123 0xFFE 3) := by decide

/-! ### Cycle, faults and ROM load (sections 2.7 and 2.8) -/

/-- F1 and F3. -/
theorem test_fetch_faults : faultOf (step { State.reset with pc := 0xFFF }) = some (.fetchRange 0xFFF) ∧
    faultOf (step State.reset) = some (.illegalOpcode 0x200 0x0000) := by decide

/-- F2 and F4: the timers are not ticked, and no further step is admitted. -/
theorem test_illegal_then_refused :
    let s := (transact { State.reset with dt := 5 } (.step 0)).1
    s.dt = 5 ∧ s.pc = 0x200 ∧ s.status = .faulted (.illegalOpcode 0x200 0x0000) ∧
      (transact s (.step 0)).2 = .notAdmitted (.stepNotAdmitted (.illegalOpcode 0x200 0x0000)) := by decide

/-- F5. -/
theorem test_tick : passes (run 0x6105 { State.reset with dt := 1 })
    (fun t => t.getV 1 == 5 && t.pc == 0x202 && t.dt == 0 && t.st == 0 && t.phase == .started) = true := by decide

/-- L1 to L3. -/
theorem test_rom_load :
    transact State.reset (.loadRom []) = (State.reset, .configurationError) ∧
    ((transact State.reset (.loadRom [0x12, 0x00])).1.mem = [(0x200, 0x12)] ∧
      (transact State.reset (.loadRom [0x12, 0x00])).1.phase = .loaded) ∧
    (transact (transact State.reset (.loadRom [0x12, 0x00])).1 (.loadRom [0x00, 0xE0])).2 =
      .notAdmitted .loadNotAdmitted := by decide

/-! ### Witnesses of the statements' hypotheses

`witness_<Name>` belongs to `Obligations.<Name>`. Each clause has its own conjunct, at a boundary of its range. -/

/-- A result that passes is a next state. -/
theorem exists_next {r : StepResult} {p : State → Bool} (h : passes r p = true) : ∃ t, r = .next t ∧ p t = true := by
  cases r with
  | next t => exact ⟨t, rfl, h⟩
  | fault f => cases h
  | refused q => cases h

/-- A result with a record is that fault. -/
theorem eq_fault {r : StepResult} {f : Fault} (h : faultOf r = some f) : r = .fault f := by
  cases r with
  | next t => cases h
  | fault g => rw [faultOf, Option.some.injEq] at h; rw [h]
  | refused q => cases h

/-- The block stopped by the illegal opcode of empty memory. -/
def stopped : State := { State.reset with status := .faulted (.illegalOpcode 0x200 0x0000) }

/-- The reset state with I set. -/
def idx (w : Word) : State := { State.reset with index := w }

/-- The same with LOW_WRITE = `write`. -/
def idxLow (w : Word) : State := { lowAdmitted with index := w }

/-- The reset state with the opcode `w` at its pc. -/
def at_ (w : Nat) : State := State.reset.withFetchWord 16 w

theorem witness_MemoryMapAndRomLoad : State.reset.phase = .fresh ∧ 1 ≤ [(0xAB : Byte)].length ∧
    (List.replicate 3584 (0xAB : Byte)).length ≤ 3584 ∧ (0x04F : Nat) < 0x050 ∧ (0x09F = 0x050 + (79 : Fin 80).val) ∧
    (0x0A0 ≤ (4095 : Nat) ∧ 4095 < 4096) := by
  rw [List.length_replicate]
  decide

theorem witness_RomLengthOutOfRange : State.reset.phase = .fresh ∧ ([] : List Byte).length = 0 ∧
    3584 < (List.replicate 3585 (0xAB : Byte)).length ∧ 1 ≤ [(0x12 : Byte), 0x00].length ∧
    [(0x12 : Byte), 0x00].length ≤ 3584 := by
  rw [List.length_replicate]
  decide

theorem witness_LateRomLoadAndKeyInput :
    (transact State.reset (.loadRom [0x12, 0x00])).1.phase = .loaded ∧
    (transact (at_ 0x1200) (.step 0)).1.phase = .started := by decide

theorem witness_FaultIsTerminal : stopped.status = .faulted (.illegalOpcode 0x200 0x0000) ∧
    ∀ p, Transaction.inspect ≠ .construct p := ⟨rfl, fun _ h => by cases h⟩

theorem witness_StepTransaction :
    step { State.reset with randIn := some 0 } = .fault (.illegalOpcode 0x200 0x0000) ∧
    ∃ t, step { at_ 0xC3FF with randIn := some 0xA7 } = .next t ∧ (t.getV 3 == 0xA7) = true :=
  ⟨eq_fault (by decide), exists_next (by decide)⟩

theorem witness_StepRunsDecodedInstruction :
    (State.reset.status = .running ∧ 4096 ≤ { State.reset with pc := 0xFFF }.pc.toNat + 1) ∧
    ({ State.reset with pc := 0xFFE }.pc.toNat + 1 < 4096 ∧
      decode (State.opcodeAt { State.reset with pc := 0xFFE }) = none) ∧
    ((at_ 0x6105).Runs (.ldByte 1 5) ∧
      ∃ t, exec (.ldByte 1 5) { at_ 0x6105 with pc := (at_ 0x6105).pc + 2 } = .next t ∧ (t.getV 1 == 5) = true) ∧
    ((at_ 0x00EE).Runs .ret ∧
      exec .ret { at_ 0x00EE with pc := (at_ 0x00EE).pc + 2 } = .fault (.stackUnderflow 0x200 0x00EE)) := by
  unfold State.Runs
  exact ⟨by decide, by decide, ⟨by decide, exists_next (by decide)⟩, ⟨by decide, eq_fault (by decide)⟩⟩

theorem witness_TimersTickOncePerStep :
    ((at_ 0xF015).Runs (.ldDt 0) ∧ ∃ t, step (at_ 0xF015) = .next t ∧ (t.dt == 0) = true) ∧
    ((at_ 0xF018).Runs (.ldSt 0) ∧ ∃ t, step (at_ 0xF018) = .next t ∧ (t.st == 0) = true) ∧
    step { { State.reset with dt := 5 } with randIn := some 0 } = .fault (.illegalOpcode 0x200 0x0000) ∧
    (∀ p, Transaction.setKey 3 true ≠ .construct p) ∧ ∀ rand, Transaction.setKey 3 true ≠ .step rand := by
  unfold State.Runs
  exact ⟨⟨by decide, exists_next (by decide)⟩, ⟨by decide, exists_next (by decide)⟩, eq_fault (by decide),
    fun _ h => (by cases h), fun _ h => (by cases h)⟩

/-- At the last address an opcode fits, and one past it. -/
theorem witness_FaultRecordNamesInstruction :
    (step { State.reset with pc := 0xFFE } = .fault (.illegalOpcode 0xFFE 0x0000) ∧
      { State.reset with pc := 0xFFE }.pc.toNat + 1 < 4096) ∧
    (step { State.reset with pc := 0xFFF } = .fault (.fetchRange 0xFFF) ∧
      4096 ≤ { State.reset with pc := 0xFFF }.pc.toNat + 1) :=
  ⟨⟨eq_fault (by decide), by decide⟩, ⟨eq_fault (by decide), by decide⟩⟩

theorem witness_LegalOpcodesAreTheRows : decode 0x80E6 = some (.shr 0) ∧
    ∃ row ∈ opcodeMap, (0x80E6 : Word) &&& row.mask = row.pat := by decide

theorem witness_OpcodeRowsExclusive :
    ∃ a ∈ opcodeMap, ∃ b ∈ opcodeMap, (0x80E6 : Word) &&& a.mask = a.pat ∧ (0x80E6 : Word) &&& b.mask = b.pat := by decide

/-- One opcode of each kind R320 lists. -/
theorem witness_IllegalOpcodesListed : decode 0x0000 = none ∧ decode 0x5121 = none ∧ decode 0x9121 = none ∧
    decode 0x812D = none ∧ decode 0xE1A2 = none ∧ decode 0xF156 = none := by decide

/-- Each `Decodes` clause has an opcode of its row: the largest one. -/
theorem witness_Decodes : (0x6FFF : Word) &&& 0xF000 = 0x6000 ∧ (0x8FF0 : Word) &&& 0xF00F = 0x8000 ∧
    (0xFF65 : Word) &&& 0xF0FF = 0xF065 ∧ (0x00EE : Word) &&& 0xFFFF = 0x00EE := by decide

/-- The clauses on x: VF and a register that is not VF. -/
theorem witness_AddSetsCarry_SubtractSetsNotBorrow_ShiftsReadInOrder : (14 : Reg) ≠ vf ∧ (15 : Reg) = vf := by decide

theorem witness_RandomAndMask : { State.reset with randIn := some 0xA7 }.randIn = some 0xA7 := rfl

/-- With one slot free, and with none. -/
theorem witness_CallPushesReturnAddress : { State.reset with sp := 15 }.sp.val < 16 ∧
    { State.reset with sp := 16 }.sp.val = 16 := by decide

/-- With one address held, with sixteen, and with none. -/
theorem witness_ReturnPopsAddress : 0 < { State.reset with sp := 1 }.sp.val ∧ 0 < { State.reset with sp := 16 }.sp.val ∧
    State.reset.sp.val = 0 := by decide

/-- A skip that is taken at the last address, and a wait for a key. -/
theorem witness_ProgramCounterAfterEachInstruction :
    (({ State.reset with pc := 0xFFE }.withFetchWord 16 0x3100).Runs (.seByte 1 0) ∧
      ∃ t, step ({ State.reset with pc := 0xFFE }.withFetchWord 16 0x3100) = .next t ∧ (t.pc == 0x1002) = true) ∧
    ((at_ 0xF20A).Runs (.ldKey 2) ∧ ∃ t, step (at_ 0xF20A) = .next t ∧ (t.pc == 0x200) = true) := by
  unfold State.Runs
  exact ⟨⟨by decide, exists_next (by decide)⟩, ⟨by decide, exists_next (by decide)⟩⟩

theorem witness_JumpToSelfHolds : (at_ 0x1200).Runs (.jp 0x200) ∧ (0x200 : BitVec 12).toNat = (at_ 0x1200).pc.toNat := by
  unfold State.Runs
  decide

/-- The largest sum that is stored, and the smallest that faults. -/
theorem witness_AddToIndex :
    { withRegs [(1, 0x20)] with index := 0xFFDF }.index.toNat + ((withRegs [(1, 0x20)]).getV 1).toNat ≤ 0xFFFF ∧
    0xFFFF < { withRegs [(1, 0x20)] with index := 0xFFE0 }.index.toNat + ((withRegs [(1, 0x20)]).getV 1).toNat := by decide

/-- The last three addresses, one past them; the first address that may be written, the one below it under each
LOW_WRITE. -/
theorem witness_StoreDecimalDigits :
    ((idx 0xFFD).index.toNat + 3 ≤ 4096 ∧ 0x200 ≤ (idx 0xFFD).index.toNat) ∧ 4096 < (idx 0xFFE).index.toNat + 3 ∧
    ((idx 0x200).index.toNat + 3 ≤ 4096 ∧ 0x200 ≤ (idx 0x200).index.toNat) ∧
    ((idx 0x1FF).index.toNat < 0x200 ∧ (idx 0x1FF).params.lowWrite = .fault) ∧
    ((idxLow 0x1FF).index.toNat + 3 ≤ 4096 ∧ (idxLow 0x1FF).params.lowWrite = .write) := by decide

/-- Sixteen registers to the last addresses, one past them, and the low addresses under each LOW_WRITE. -/
theorem witness_StoreRegisters :
    ((idx 0xFF0).index.toNat + (15 : Reg).val + 1 ≤ 4096 ∧ 0x200 ≤ (idx 0xFF0).index.toNat) ∧
    4096 < (idx 0xFF1).index.toNat + (15 : Reg).val + 1 ∧
    ((idx 0x1FF).index.toNat < 0x200 ∧ (idx 0x1FF).params.lowWrite = .fault) ∧
    ((idxLow 0x000).index.toNat + (15 : Reg).val + 1 ≤ 4096 ∧ (idxLow 0x000).params.lowWrite = .write) ∧
    ((15 : Fin 16) ≤ (15 : Reg) ∧ (0xFEF < (idx 0xFF0).index.toNat)) := by decide

theorem witness_LoadRegisters : (idx 0xFF0).index.toNat + (15 : Reg).val + 1 ≤ 4096 ∧
    4096 < (idx 0xFF1).index.toNat + (15 : Reg).val + 1 := by decide

theorem witness_TimerTransfers : (at_ 0xF107).Runs (.ldFromDt 1) ∧ (at_ 0xF015).Runs (.ldDt 0) ∧
    (at_ 0xF018).Runs (.ldSt 0) := by
  unfold State.Runs
  decide

/-- The last key, and the first value that is no key. -/
theorem witness_SkipOnKey : ((withRegs [(5, 0x0F)]).getV 5).toNat = (15 : Fin 16).val ∧
    15 < ((withRegs [(5, 0x10)]).getV 5).toNat := by decide

/-- The lowest and the highest key, and none. -/
theorem witness_WaitForKey :
    ((press (press State.reset 15) 0).keyDown 0 = true ∧ ∀ j < (0 : Fin 16), (press State.reset 0).keyDown j = false) ∧
    ((press State.reset 15).keyDown 15 = true ∧ ∀ j < (15 : Fin 16), (press State.reset 15).keyDown j = false) ∧
    ∀ k, State.reset.keyDown k = false := by decide

theorem witness_KeyWaitHeldByPc : ((at_ 0xF20A).Runs (.ldKey 2) ∧ ∀ k, (at_ 0xF20A).keyDown k = false) ∧
    ((press (at_ 0xF20A) 15).Runs (.ldKey 2) ∧ ∃ k, (press (at_ 0xF20A) 15).keyDown k = true) := by
  unfold State.Runs
  decide

/-- A sprite whose last byte is the last of memory. -/
theorem witness_DrawClipped : (sprite .clip 0xFF1 [0xFF] 60 0).params.drawEdge = .clip ∧
    (sprite .clip 0xFF1 [0xFF] 60 0).index.toNat + (15 : Fin 16).val ≤ 4096 := by decide

theorem witness_DrawWrapped : (sprite .wrap 0xFFF [0xFF] 60 0).params.drawEdge = .wrap ∧
    (sprite .wrap 0xFFF [0xFF] 60 0).index.toNat + (1 : Fin 16).val ≤ 4096 := by decide

/-- A set bit in the first column off the screen; a sprite that ends at the last column. -/
theorem witness_DrawEdgeFault :
    ((sprite .fault 0x300 [0xFF] 57 0).params.drawEdge = .fault ∧
      (sprite .fault 0x300 [0xFF] 57 0).spriteBit 1 7 0 = true ∧ 64 ≤ (sprite .fault 0x300 [0xFF] 57 0).anchorX 1 + 7) ∧
    ((sprite .fault 0x300 [0xFF] 56 0).params.drawEdge = .fault ∧
      ∀ c r, (sprite .fault 0x300 [0xFF] 56 0).spriteBit 1 c r = true →
        (sprite .fault 0x300 [0xFF] 56 0).anchorX 1 + c < 64 ∧ (sprite .fault 0x300 [0xFF] 56 0).anchorY 2 + r < 32) := by
  refine ⟨by decide, by decide, fun c r h => ?_⟩
  have hx : (sprite .fault 0x300 [0xFF] 56 0).anchorX 1 = 56 := by decide
  have hy : (sprite .fault 0x300 [0xFF] 56 0).anchorY 2 = 0 := by decide
  simp only [State.spriteBit, Bool.and_eq_true, decide_eq_true_eq] at h
  omega

/-- One past the last sprite address, with n = 0 too. -/
theorem witness_DrawRangeFault : 4096 < { State.reset with index := 0x1001 }.index.toNat + (0 : Fin 16).val ∧
    4096 < { State.reset with index := 0xFF2 }.index.toNat + (15 : Fin 16).val := by decide

/-- Under each DRAW_EDGE, the sprite running off the screen where that completes, over a lit pixel. -/
theorem witness_DrawTwiceRestores : (1 : Reg) ≠ vf ∧ (2 : Reg) ≠ vf ∧
    (∃ t, exec (.drw 1 2 1) { sprite .clip 0x300 [0xFF] 60 0 with fb := [(63, 0xFF)] } = .next t ∧
      (t.getV 15 == 1) = true) ∧
    (∃ t, exec (.drw 1 2 1) (sprite .wrap 0x300 [0xFF] 60 0) = .next t ∧ (t.pixel 3 0 == 0xFF) = true) ∧
    (∃ t, exec (.drw 1 2 1) (sprite .fault 0x300 [0xFF] 56 0) = .next t ∧ (t.pixel 63 0 == 0xFF) = true) :=
  ⟨by decide, by decide, exists_next (by decide), exists_next (by decide), exists_next (by decide)⟩

/-- For the flag clauses with x = 15 and x = 1, and an instruction that writes no flag. -/
theorem witness_RegisterWriters :
    (∃ t, exec (.shr vf) (withRegs [(15, 3)]) = .next t ∧ (t.getV 15 == 0) = true) ∧ writesFlag (.shr vf) = true ∧
    Instr.shr vf ≠ .shl vf ∧
    (∃ t, exec (.shl 1) (withRegs [(1, 0x81)]) = .next t ∧ (t.getV 15 == 1) = true) ∧ (0 : Reg) ∉ destinations (.shl 1) ∧
    (∃ t, exec (.store 15) { State.reset with index := 0x300 } = .next t ∧ (t.getV 15 == 0) = true) ∧
    writesFlag (.store 15) = false ∧ vf ∉ destinations (.store 15) :=
  ⟨exists_next (by decide), rfl, by decide, exists_next (by decide), by decide, exists_next (by decide), rfl, by decide⟩

/-- Fx07 completes and is none of the writers or readers that the whole-machine statements except. -/
theorem witness_WritersAndReaders :
    (∃ t, exec (.ldFromDt 1) { State.reset with dt := 4 } = .next t ∧ (t.getV 1 == 4) = true) ∧
    (∀ nnn, Instr.ldFromDt 1 ≠ .ldI nnn) ∧ (∀ x, Instr.ldFromDt 1 ≠ .ldFont x) ∧ (∀ x, Instr.ldFromDt 1 ≠ .addI x) ∧
    (∀ x y n, Instr.ldFromDt 1 ≠ .drw x y n) ∧ (∀ x, Instr.ldFromDt 1 ≠ .ldBcd x) ∧ (∀ x, Instr.ldFromDt 1 ≠ .store x) ∧
    (∀ x, Instr.ldFromDt 1 ≠ .load x) ∧ (∀ nnn, Instr.ldFromDt 1 ≠ .call nnn) ∧ Instr.ldFromDt 1 ≠ .ret ∧
    (∀ x, Instr.ldFromDt 1 ≠ .ldSt x) ∧ Instr.ldFromDt 1 ≠ .cls ∧ ∀ x kk, Instr.ldFromDt 1 ≠ .rnd x kk := by
  refine ⟨exists_next (by decide), ?_, ?_, ?_, ?_, ?_, ?_, ?_, ?_, ?_, ?_, ?_, ?_⟩ <;> intros <;> simp

/-- The draws and the clear complete, for the clause that they leave memory; the tick of ST after Fx18. -/
theorem witness_FrameBufferWriters_SoundTimer :
    (∃ t, exec .cls { State.reset with fb := [(0, 0xFF)] } = .next t ∧ (t.fb == []) = true) ∧
    (∃ t, exec (.drw 1 2 1) (sprite .clip 0x300 [0xFF] 0 0) = .next t ∧ (t.pixel 7 0 == 0xFF) = true) ∧
    (∃ t, step ((at_ 0xF018).setV 0 2) = .next t ∧ (t.st == 1) = true) ∧ ((at_ 0xF018).setV 0 2).Runs (.ldSt 0) := by
  unfold State.Runs
  exact ⟨exists_next (by decide), exists_next (by decide), exists_next (by decide), by decide⟩

theorem witness_HostStateKeptByStep : ∃ t, step (press (at_ 0xF20A) 3) = .next t ∧ (t.getV 2 == 3) = true :=
  exists_next (by decide)

/-- A state that meets the invariant with pc, a stack slot and a pixel at their largest, and a step of it. -/
theorem witness_InvariantKeptByStep :
    ({ at_ 0x00EE with fb := [(2047, 0xFF)], sp := 1, stack := State.reset.stack.set 0 0x1000 } : State).Inv ∧
    (∃ t, step { at_ 0x00EE with fb := [(2047, 0xFF)], sp := 1, stack := State.reset.stack.set 0 0x1000 } = .next t ∧
      (t.pc == 0x1000) = true) ∧
    ({ State.reset with pc := 0x10FE } : State).Inv := by
  unfold State.Inv
  exact ⟨by decide, exists_next (by decide), by decide⟩

theorem witness_LowMemoryNeverChanges : Config.defaultParams.lowWrite = .fault ∧
    (∀ q, Transaction.construct q ∉ [.loadRom [0xF0, 0x55], .step 0]) ∧ (0x1FF : Nat) < 0x200 := by
  refine ⟨rfl, fun q h => ?_, by decide⟩
  simp at h

/-- Fx55 over the two bytes that follow it (P7's store). -/
theorem witness_StoreSeenByNextFetch :
    ({ (at_ 0xF155).setV 0 0x12 with index := 0x202 } : State).Runs (.store 1) ∧
    ∃ t, step { (at_ 0xF155).setV 0 0x12 with index := 0x202 } = .next t ∧ (t.opcodeAt == 0x1200) = true := by
  unfold State.Runs
  exact ⟨by decide, exists_next (by decide)⟩

end Sys2Proof.Machine.Test
end

section
/-! Which elements of the state an instruction can write, and which its outcome can depend on (10_state.md R140), for
every element at once. An element is set or hidden by taking it from another state, its `graft`; an operation reads an
element when a graft of it can be told afterwards. -/

namespace Sys2Proof.Machine

/-! ### Elements of the state -/

/-- The elements of the state whose writers and readers 10_state.md names. The random byte (R131) is the model's two
fields together (log entry 3). -/
inductive Element where
  | index
  | stack
  | st
  | fb
  | mem
  | rand

/-- The state `s` with the element `e` taken from `d`. -/
def State.graft (s : State) (e : Element) (d : State) : State :=
  match e with
  | .index => { s with index := d.index }
  | .stack => { s with stack := d.stack }
  | .st => { s with st := d.st }
  | .fb => { s with fb := d.fb }
  | .mem => { s with mem := d.mem }
  | .rand => { s with randIn := d.randIn, draws := d.draws }

/-- The elements an instruction can write (R140). -/
def elementsWritten (i : Instr) : List Element :=
  match i with
  | .call _ => [.stack]
  | .ldI _ | .ldFont _ | .addI _ => [.index]
  | .ldSt _ => [.st]
  | .cls | .drw _ _ _ => [.fb]
  | .ldBcd _ | .store _ => [.mem]
  | .ret | .jp _ | .seByte _ _ | .sneByte _ _ | .seReg _ _ | .ldByte _ _ | .addByte _ _ | .ldReg _ _ | .orReg _ _
  | .andReg _ _ | .xorReg _ _ | .addReg _ _ | .sub _ _ | .shr _ | .subn _ _ | .shl _ | .sneReg _ _ | .jpV0 _
  | .rnd _ _ | .skp _ | .sknp _ | .ldFromDt _ | .ldKey _ | .ldDt _ | .load _ => []

/-- The elements an instruction's outcome can depend on, the fetch's reads of memory apart (R140, R131). -/
def elementsRead (i : Instr) : List Element :=
  match i with
  | .ret => [.stack]
  | .rnd _ _ => [.rand]
  | .drw _ _ _ => [.index, .fb, .mem]
  | .addI _ | .ldBcd _ | .store _ => [.index]
  | .load _ => [.index, .mem]
  | .cls | .jp _ | .call _ | .seByte _ _ | .sneByte _ _ | .seReg _ _ | .ldByte _ _ | .addByte _ _ | .ldReg _ _
  | .orReg _ _ | .andReg _ _ | .xorReg _ _ | .addReg _ _ | .sub _ _ | .shr _ | .subn _ _ | .shl _ | .sneReg _ _
  | .ldI _ | .jpV0 _ | .skp _ | .sknp _ | .ldFromDt _ | .ldKey _ | .ldDt _ | .ldSt _ | .ldFont _ => []

/-! ### What a graft leaves to be read -/

section
variable (s d : State) (e : Element)

@[simp] theorem State.graft_pc : (s.graft e d).pc = s.pc := by cases e <;> rfl
@[simp] theorem State.graft_sp : (s.graft e d).sp = s.sp := by cases e <;> rfl
@[simp] theorem State.graft_params : (s.graft e d).params = s.params := by cases e <;> rfl
@[simp] theorem State.graft_getV (r : Reg) : (s.graft e d).getV r = s.getV r := by cases e <;> rfl
@[simp] theorem State.graft_instrAddr : (s.graft e d).instrAddr = s.instrAddr := by cases e <;> rfl
@[simp] theorem State.graft_isPressed (b : Byte) : (s.graft e d).isPressed b = s.isPressed b := by cases e <;> rfl
@[simp] theorem State.graft_pressedKey : (s.graft e d).pressedKey = s.pressedKey := by cases e <;> rfl
@[simp] theorem State.graft_regsUpTo (x : Reg) : (s.graft e d).regsUpTo x = s.regsUpTo x := by cases e <;> rfl

end

section
variable {e : Element} (s d : State)

theorem State.graft_index (he : e ≠ .index) : (s.graft e d).index = s.index := by
  cases e
  case index => exact absurd rfl he
  all_goals rfl

theorem State.graft_fb (he : e ≠ .fb) : (s.graft e d).fb = s.fb := by
  cases e
  case fb => exact absurd rfl he
  all_goals rfl

theorem State.graft_memRead (he : e ≠ .mem) (a : Nat) : (s.graft e d).memRead a = s.memRead a := by
  cases e
  case mem => exact absurd rfl he
  all_goals rfl

theorem State.graft_spriteRows (hi : e ≠ .index) (hm : e ≠ .mem) (n : Nat) :
    (s.graft e d).spriteRows n = s.spriteRows n := by
  simp only [State.spriteRows, s.graft_index d hi, s.graft_memRead d hm]

theorem State.graft_checkRange (he : e ≠ .index) (i : Instr) (len : Nat) :
    (s.graft e d).checkRange i len = s.checkRange i len := by
  simp [State.checkRange, s.graft_index d he]

theorem State.graft_checkLowWrite (he : e ≠ .index) (i : Instr) (len : Nat) :
    (s.graft e d).checkLowWrite i len = s.checkLowWrite i len := by
  simp [State.checkLowWrite, s.graft_index d he]

end

/-! ### The shared operations on a grafted state

Up to the grafted element, each does what it does on the state itself. -/

section
variable (e : Element) (s d k : State)

theorem State.graft_skipIf (c : Bool) : ((s.graft e d).skipIf c).graft e k = (s.skipIf c).graft e k := by
  cases c <;> cases e <;> rfl

/-- A write to grafted memory is a graft of the written memory. -/
theorem State.memWrite_graft (a : Nat) (b : Byte) :
    (s.graft e d).memWrite a b = (s.memWrite a b).graft e ((s.graft e d).memWrite a b) := by
  cases e <;> rfl

theorem State.graft_memWriteAll (bytes : List Byte) : ∀ (s d : State) (base : Nat),
    ((s.graft e d).memWriteAll base bytes).graft e k = (s.memWriteAll base bytes).graft e k := by
  induction bytes with
  | nil => intro s d base; cases e <;> rfl
  | cons b rest ih =>
    intro s d base
    rw [State.memWriteAll, State.memWrite_graft, ih, State.memWriteAll]

theorem State.graft_loadRegs {e : Element} (he : e ≠ .mem) (base : Nat) (x : Reg) :
    ((s.graft e d).loadRegs base x).graft e k = (s.loadRegs base x).graft e k := by
  cases e
  case mem => exact absurd rfl he
  all_goals rfl

theorem sameUpTo_orFault {f : State → State} {r r' : StepResult} (c : Option Fault) (h : SameUpTo f r r') :
    SameUpTo f (orFault c r) (orFault c r') := by
  cases c with
  | none => exact h
  | some record => rfl

theorem sameUpTo_indexLoad (i : Instr) (value : Nat) :
    SameUpTo (fun t => t.graft e k) (s.indexLoad i value) ((s.graft e d).indexLoad i value) := by
  unfold State.indexLoad
  split_ifs <;> cases e <;> rfl

theorem sameUpTo_indexAdd {e : Element} (he : e ≠ .index) (i : Instr) (b : Byte) :
    SameUpTo (fun t => t.graft e k) (s.indexAdd i b) ((s.graft e d).indexAdd i b) := by
  unfold State.indexAdd
  rw [s.graft_index d he]
  split_ifs <;> cases e <;> rfl

end

/-! ### An element kept by an operation -/

section
variable (s : State)

theorem State.skipIf_graft_self (e : Element) (c : Bool) : (s.skipIf c).graft e s = s.skipIf c := by
  cases c <;> cases e <;> rfl

theorem State.withRegs_graft_self (e : Element) (regs : Vector Byte 16) :
    { s with v := regs }.graft e s = { s with v := regs } := by
  cases e <;> rfl

theorem State.setIndex_graft_self {e : Element} (he : e ≠ .index) (w : Word) :
    (s.setIndex w).graft e s = s.setIndex w := by
  cases e
  case index => exact absurd rfl he
  all_goals rfl

theorem State.memWriteAll_graft_self {e : Element} (he : e ≠ .mem) (base : Nat) (bytes : List Byte) :
    (s.memWriteAll base bytes).graft e s = s.memWriteAll base bytes := by
  rw [State.memWriteAll_eq]
  cases e
  case mem => exact absurd rfl he
  all_goals rfl

end

/-! ### Every instruction -/

/-- An element an instruction does not write is after it as it was before. -/
theorem exec_unwritten {i : Instr} {s t : State} {e : Element} (h : exec i s = .next t)
    (he : e ∉ elementsWritten i) : t.graft e s = t := by
  cases i
  case ret =>
    simp only [exec, execRet] at h
    split at h <;> cases h
    cases e <;> rfl
  case call nnn =>
    simp only [exec, execCall] at h
    split at h <;> cases h
    cases e
    case stack => simp [elementsWritten] at he
    all_goals rfl
  case seByte | sneByte | seReg | sneReg =>
    cases h
    exact s.skipIf_graft_self e _
  case skp | sknp =>
    simp only [exec, execSkp, execSknp] at h
    split at h <;> cases h
    exact s.skipIf_graft_self e _
  case ldKey =>
    simp only [exec, execLdKey] at h
    split at h <;> cases h <;> cases e <;> rfl
  case ldI | ldFont | addI =>
    have hi : e ≠ .index := by simpa [elementsWritten] using he
    simp only [exec, execLdI, execLdFont, execAddI, State.indexLoad, State.indexAdd] at h
    split at h <;> cases h
    exact s.setIndex_graft_self hi _
  case ldBcd | store =>
    have hm : e ≠ .mem := by simpa [elementsWritten] using he
    simp only [exec, execLdBcd, execStore, orFault_eq_next] at h
    obtain ⟨-, -, h⟩ := h
    cases h
    exact s.memWriteAll_graft_self hm _ _
  case load =>
    simp only [exec, execLoad, orFault_eq_next] at h
    obtain ⟨-, h⟩ := h
    cases h
    exact s.withRegs_graft_self e _
  case drw =>
    obtain ⟨-, fb, flag, rfl⟩ := exec_drw_next h
    cases e
    case fb => simp [elementsWritten] at he
    all_goals rfl
  case cls =>
    cases h
    cases e
    case fb => simp [elementsWritten] at he
    all_goals rfl
  case ldSt =>
    cases h
    cases e
    case st => simp [elementsWritten] at he
    all_goals rfl
  all_goals cases h; cases e <;> rfl

/-- An element an instruction does not read has no effect on its outcome: given another value of it the instruction ends
the same way, and the next states differ in that element at most. -/
theorem exec_unread {i : Instr} {e : Element} (he : e ∉ elementsRead i) (s d k : State) :
    SameUpTo (fun t => t.graft e k) (exec i s) (exec i (s.graft e d)) := by
  cases i
  case ret =>
    simp only [exec, execRet, State.graft_sp, State.graft_instrAddr]
    split
    · rfl
    · cases e
      case stack => simp [elementsRead] at he
      all_goals rfl
  case call nnn =>
    simp only [exec, execCall, State.graft_sp, State.graft_instrAddr]
    split
    · rfl
    · cases e <;> rfl
  case seByte | sneByte | seReg | sneReg =>
    simp only [exec, execSeByte, execSneByte, execSeReg, execSneReg, State.graft_getV]
    exact (State.graft_skipIf e s d k _).symm
  case skp x | sknp x =>
    simp only [exec, execSkp, execSknp, State.graft_getV, State.graft_isPressed, State.graft_instrAddr]
    split
    · rfl
    · exact (State.graft_skipIf e s d k _).symm
  case ldKey x =>
    simp only [exec, execLdKey, State.graft_pressedKey]
    split <;> cases e <;> rfl
  case ldI nnn => exact sameUpTo_indexLoad e s d k _ _
  case ldFont x =>
    simp only [exec, execLdFont, State.graft_getV]
    exact sameUpTo_indexLoad e s d k _ _
  case addI x =>
    simp only [exec, execAddI, State.graft_getV]
    exact sameUpTo_indexAdd s d k (by simpa [elementsRead] using he) _ _
  case ldBcd x | store x =>
    have hi : e ≠ .index := by simpa [elementsRead] using he
    simp only [exec, execLdBcd, execStore, State.graft_checkRange s d hi, State.graft_checkLowWrite s d hi,
      s.graft_index d hi, State.graft_getV, State.graft_regsUpTo]
    exact sameUpTo_orFault _ (sameUpTo_orFault _ (State.graft_memWriteAll e k _ s d _).symm)
  case load x =>
    obtain ⟨hi, hm⟩ : e ≠ .index ∧ e ≠ .mem := by simpa [elementsRead] using he
    simp only [exec, execLoad, s.graft_checkRange d hi, s.graft_index d hi]
    exact sameUpTo_orFault _ (s.graft_loadRegs d k hm _ x).symm
  case drw x y n =>
    obtain ⟨hi, hf, hm⟩ : e ≠ .index ∧ e ≠ .fb ∧ e ≠ .mem := by simpa [elementsRead] using he
    simp only [exec, execDrw, s.graft_checkRange d hi, s.graft_spriteRows d hi hm, s.graft_fb d hf, State.graft_getV,
      State.graft_params, State.graft_instrAddr]
    refine sameUpTo_orFault _ ?_
    split
    · rfl
    · cases e <;> rfl
  case rnd x kk =>
    cases e
    case rand => simp [elementsRead] at he
    all_goals rfl
  all_goals cases e <;> rfl

/-- A completed step of a state that runs `i` is `i` completed and the step ended (R333). -/
theorem step_next_of_runs {i : Instr} {s t : State} (hr : s.Runs i) (h : step s = .next t) :
    ∃ u, exec i s.advance = .next u ∧ t = u.endStep :=
  endOfStep_eq_next.1 ((step_of_runs hr).symm.trans h)

/-- Every instruction but Fx18 leaves the sound timer (R121). -/
theorem exec_st {i : Instr} {s t : State} (h : exec i s = .next t) (hi : ∀ x, i ≠ .ldSt x) : t.st = s.st := by
  have hw : .st ∉ elementsWritten i := by cases i <;> simp_all [elementsWritten]
  exact (congrArg State.st (exec_unwritten h hw)).symm

/-! ### The statements -/

/-- Settles O49: the index is one element of those `exec_unwritten` and `exec_unread` speak of. -/
theorem indexWritersAndReaders : Obligations.IndexWritersAndReaders := by
  refine ⟨fun i s t h _ _ _ => ?_, fun i s w _ _ _ _ _ => ?_⟩
  · have hw : .index ∉ elementsWritten i := by cases i <;> simp_all [elementsWritten]
    exact (congrArg State.index (exec_unwritten h hw)).symm
  · have hr : .index ∉ elementsRead i := by cases i <;> simp_all [elementsRead]
    exact exec_unread hr s { s with index := w } State.reset

/-- Settles O50: the slots are an element apart from sp, and construction replicates 0. -/
theorem stackWritersAndReaders : Obligations.StackWritersAndReaders := by
  refine ⟨fun i s t h _ => ?_, fun i s slots _ => ?_, fun p j => ?_⟩
  · have hw : .stack ∉ elementsWritten i := by cases i <;> simp_all [elementsWritten]
    exact (congrArg State.stack (exec_unwritten h hw)).symm
  · have hr : .stack ∉ elementsRead i := by cases i <;> simp_all [elementsRead]
    exact exec_unread hr s { s with stack := slots } { s with stack := slots }
  · exact Vector.getElem_replicate j.isLt

/-- Settles O51: `st` is in no instruction's reads, and the step's end ticks what the instruction left. -/
theorem soundTimerUnread : Obligations.SoundTimerUnread := by
  refine ⟨fun _ => rfl, fun i s t => exec_st, fun i s t hr h => ?_, fun i s b => ?_, fun _ => rfl⟩
  · obtain ⟨u, hu, rfl⟩ := step_next_of_runs hr h
    split
    · cases hu
      rfl
    · exact congrArg tick (exec_st (s := s.advance) hu ‹_›)
  · have hr : .st ∉ elementsRead i := by cases i <;> simp [elementsRead]
    exact exec_unread hr s { s with st := b } State.reset

/-- Settles O52: the frame buffer and memory are different elements, and 00E0 and Dxyn write the first alone. -/
theorem frameBufferWritersAndReaders : Obligations.FrameBufferWritersAndReaders := by
  refine ⟨fun i s t h _ _ => ?_, fun i s t h hi => ?_, fun i s fb _ => ?_, fun _ => rfl⟩
  · have hw : .fb ∉ elementsWritten i := by cases i <;> simp_all [elementsWritten]
    exact (congrArg State.fb (exec_unwritten h hw)).symm
  · have hw : .mem ∉ elementsWritten i := by
      rcases hi with rfl | ⟨x, y, n, rfl⟩ <;> simp [elementsWritten]
    exact (congrArg State.mem (exec_unwritten h hw)).symm
  · have hr : .fb ∉ elementsRead i := by cases i <;> simp_all [elementsRead]
    exact exec_unread hr s { s with fb := fb } State.reset

end Sys2Proof.Machine
end

section
/-! The opcode map and the decoder: a word recomposed from its fields (30_encoding.md R303), and the words that decode
as the words of the 34 rows (R321). -/

namespace Sys2Proof.Machine

open Laws

/-! ### The encoder's forms as R303 recomposes them -/

theorem toNat_wordNnn_eq_or (op : BitVec 4) (nnn : BitVec 12) :
    (wordNnn op nnn).toNat = op.toNat <<< 12 ||| nnn.toNat :=
  BitVec.toNat_append op nnn

theorem toNat_wordXkk_eq_or (op : BitVec 4) (x : Reg) (kk : Byte) :
    (wordXkk op x kk).toNat = op.toNat <<< 12 ||| x.val <<< 8 ||| kk.toNat := by
  have h : (wordXkk op x kk).toNat = (op ++ (BitVec.ofFin x : BitVec 4) ++ kk).toNat := rfl
  simp only [h, BitVec.toNat_append, Nat.shiftLeft_or_distrib, ← Nat.shiftLeft_add]
  rfl

theorem toNat_wordXyn_eq_or (op : BitVec 4) (x y n : Fin 16) :
    (wordXyn op x y n).toNat = op.toNat <<< 12 ||| x.val <<< 8 ||| y.val <<< 4 ||| n.val := by
  have h : (wordXyn op x y n).toNat =
    (op ++ (BitVec.ofFin x : BitVec 4) ++ (BitVec.ofFin y : BitVec 4) ++ (BitVec.ofFin n : BitVec 4)).toNat := rfl
  simp only [h, BitVec.toNat_append, Nat.shiftLeft_or_distrib, ← Nat.shiftLeft_add]
  rfl

/-! ### What decodes matches the row of its instruction -/

theorem rowOf_mem {i : Instr} {row : OpRow} (h : rowOf i = some row) : row ∈ opcodeMap := by
  cases i <;> exact List.mem_of_getElem? h

/-- The word of every instruction lies in the instruction's row. -/
theorem encode_matches_row (i : Instr) : EncodedRow.Statement i :=
  match i with
  | .cls => EncodedRow.cls
  | .ret => EncodedRow.ret
  | .jp nnn => EncodedRow.jp nnn
  | .call nnn => EncodedRow.call nnn
  | .seByte x kk => EncodedRow.seByte x kk
  | .sneByte x kk => EncodedRow.sneByte x kk
  | .seReg x y => EncodedRow.seReg x y
  | .ldByte x kk => EncodedRow.ldByte x kk
  | .addByte x kk => EncodedRow.addByte x kk
  | .ldReg x y => EncodedRow.ldReg x y
  | .orReg x y => EncodedRow.orReg x y
  | .andReg x y => EncodedRow.andReg x y
  | .xorReg x y => EncodedRow.xorReg x y
  | .addReg x y => EncodedRow.addReg x y
  | .sub x y => EncodedRow.sub x y
  | .shr x => EncodedRow.shr x
  | .subn x y => EncodedRow.subn x y
  | .shl x => EncodedRow.shl x
  | .sneReg x y => EncodedRow.sneReg x y
  | .ldI nnn => EncodedRow.ldI nnn
  | .jpV0 nnn => EncodedRow.jpV0 nnn
  | .rnd x kk => EncodedRow.rnd x kk
  | .drw x y n => EncodedRow.drw x y n
  | .skp x => EncodedRow.skp x
  | .sknp x => EncodedRow.sknp x
  | .ldFromDt x => EncodedRow.ldFromDt x
  | .ldKey x => EncodedRow.ldKey x
  | .ldDt x => EncodedRow.ldDt x
  | .ldSt x => EncodedRow.ldSt x
  | .addI x => EncodedRow.addI x
  | .ldFont x => EncodedRow.ldFont x
  | .ldBcd x => EncodedRow.ldBcd x
  | .store x => EncodedRow.store x
  | .load x => EncodedRow.load x

/-- Under the mask of the rows that fix the major opcode and n, words that agree on both are equal. -/
theorem and_xF00F_congr {w w' : Word} (hop : fieldOp w = fieldOp w') (hn : fieldN w = fieldN w') :
    w &&& 0xF00F = w' &&& 0xF00F := by
  refine and_eq_of_nibbles ?_ ?_ ?_ ?_
  · rw [fieldOp_and, hop]
  · rw [fieldX_and]; exact (nibble_and_zero _).trans (nibble_and_zero _).symm
  · rw [fieldY_and]; exact (nibble_and_zero _).trans (nibble_and_zero _).symm
  · rw [fieldN_and, hn]

/-- 8xyN holds the shifts at n = 6 and n = 14. -/
theorem decode8_eq_shift {x y n z : Fin 16} :
    (decode8 x y n.val = some (.shr z) → n = 6) ∧ (decode8 x y n.val = some (.shl z) → n = 14) := by
  fin_cases n <;> simp [decode8]

theorem decodeE_ne_shift {x z : Reg} {kk : Nat} : decodeE x kk ≠ some (.shr z) ∧ decodeE x kk ≠ some (.shl z) := by
  unfold decodeE
  split <;> simp

theorem decodeF_ne_shift {x z : Reg} {kk : Nat} : decodeF x kk ≠ some (.shr z) ∧ decodeF x kk ≠ some (.shl z) := by
  unfold decodeF
  split <;> simp

/-- No major opcode but 8 holds a shift. -/
theorem decode_ne_shift {o : Word} {z : Reg} (hne : (fieldOp o).toNat ≠ 8) :
    decode o ≠ some (.shr z) ∧ decode o ≠ some (.shl z) := by
  generalize hop : (fieldOp o).toNat = op at hne
  have hlt : op < 16 := hop ▸ (fieldOp o).isLt
  interval_cases op <;> simp [decode, hop, decodeE_ne_shift, decodeF_ne_shift] at hne ⊢
  split_ifs <;> simp

/-- A word that decodes to a shift has the major opcode 8 and the shift's n. -/
theorem fields_of_decode_shift {o : Word} {z : Reg} :
    (decode o = some (.shr z) → fieldOp o = 8 ∧ fieldN o = 6) ∧
    (decode o = some (.shl z) → fieldOp o = 8 ∧ fieldN o = 14) := by
  by_cases hop : (fieldOp o).toNat = 8
  · have h8 := fieldOp_eq_ofNat hop
    simp only [decode, hop]
    exact ⟨fun h => ⟨h8, decode8_eq_shift.1 h⟩, fun h => ⟨h8, decode8_eq_shift.2 h⟩⟩
  · exact ⟨fun h => absurd h (decode_ne_shift hop).1, fun h => absurd h (decode_ne_shift hop).2⟩

/-- A word agrees with the one its instruction encodes to on the major opcode and n. -/
theorem fields_of_decode {o : Word} {i : Instr} (h : decode o = some i) :
    fieldOp o = fieldOp (encode i) ∧ fieldN o = fieldN (encode i) := by
  obtain rfl | ⟨z, rfl | rfl⟩ := encode_of_decode h
  · exact ⟨rfl, rfl⟩
  · simpa [encode] using fields_of_decode_shift.1 h
  · simpa [encode] using fields_of_decode_shift.2 h

/-- A word that decodes matches the row of its instruction: what encodes back does, and a shift's row masks the y field
out. -/
theorem exists_rowOf_of_decode {o : Word} {i : Instr} (h : decode o = some i) :
    ∃ row ∈ opcodeMap, rowOf i = some row ∧ o &&& row.mask = row.pat := by
  obtain ⟨row, hr, hm⟩ := encode_matches_row i
  have hm : encode i &&& row.mask = row.pat := by simpa [OpRow.matchesOpc] using hm
  obtain ⟨hop, hn⟩ := fields_of_decode h
  refine ⟨row, rowOf_mem hr, hr, ?_⟩
  obtain rfl | ⟨z, rfl | rfl⟩ := encode_of_decode h
  · exact hm
  all_goals
    cases hr
    exact (and_xF00F_congr hop hn).trans hm

/-! ### What matches a row decodes

Every row's pattern decodes, and whether a word decodes is settled by the fields its row fixes. -/

theorem isSome_decode_pat {row : OpRow} (h : row ∈ opcodeMap) : (decode row.pat).isSome := by
  revert row
  decide

/-- The masks of the map, with the major opcodes they come with. -/
theorem mask_of_mem {row : OpRow} (h : row ∈ opcodeMap) :
    row.mask = 0xFFFF ∨
    row.mask = 0xF000 ∧ fieldOp row.pat ∈ ([1, 2, 3, 4, 6, 7, 10, 11, 12, 13] : List (BitVec 4)) ∨
    row.mask = 0xF00F ∧ fieldOp row.pat ∈ ([5, 8, 9] : List (BitVec 4)) ∨
    row.mask = 0xF0FF ∧ fieldOp row.pat ∈ ([14, 15] : List (BitVec 4)) := by
  revert row
  decide

section
variable {w w' : Word} (hop : fieldOp w = fieldOp w')
include hop

theorem isSome_decode_of_op (h : fieldOp w' ∈ ([1, 2, 3, 4, 6, 7, 10, 11, 12, 13] : List (BitVec 4))) :
    (decode w).isSome := by
  simp only [List.mem_cons, List.not_mem_nil, or_false] at h
  rcases h with h | h | h | h | h | h | h | h | h | h <;> simp [decode, hop, h]

theorem isSome_decode_congr_n (h : fieldOp w' ∈ ([5, 8, 9] : List (BitVec 4))) (hn : fieldN w = fieldN w') :
    (decode w).isSome = (decode w').isSome := by
  simp only [List.mem_cons, List.not_mem_nil, or_false] at h
  obtain h8 | h59 : fieldOp w' = 8 ∨ fieldOp w' = 5 ∨ fieldOp w' = 9 := by tauto
  · simp only [decode, hop, h8, hn, BitVec.reduceToNat]
    unfold decode8
    split <;> rfl
  · by_cases h0 : fieldN w' = 0 <;> rcases h59 with h | h <;> simp [decode, hop, h, hn, h0]

theorem isSome_decode_congr_kk (h : fieldOp w' ∈ ([14, 15] : List (BitVec 4))) (hkk : fieldKk w = fieldKk w') :
    (decode w).isSome = (decode w').isSome := by
  simp only [List.mem_cons, List.not_mem_nil, or_false] at h
  rcases h with h | h
  · simp only [decode, hop, h, hkk, BitVec.reduceToNat]
    unfold decodeE
    split <;> rfl
  · simp only [decode, hop, h, hkk, BitVec.reduceToNat]
    unfold decodeF
    split <;> rfl

end

theorem isSome_decode_of_match {o : Word} {row : OpRow} (hrow : row ∈ opcodeMap) (h : o &&& row.mask = row.pat) :
    (decode o).isSome := by
  have hpat := isSome_decode_pat hrow
  obtain hm | ⟨hm, hop⟩ | ⟨hm, hop⟩ | ⟨hm, hop⟩ := mask_of_mem hrow <;> rw [hm] at h
  · have ho : o = row.pat := (BitVec.and_allOnes (x := o)).symm.trans h
    rwa [ho]
  · exact isSome_decode_of_op (fieldOp_of_match h (by decide)) hop
  · rwa [isSome_decode_congr_n (fieldOp_of_match h (by decide)) hop (fieldN_of_match h (by decide))]
  · rwa [isSome_decode_congr_kk (fieldOp_of_match h (by decide)) hop (fieldKk_of_match h (by decide))]

/-! ### The statements -/

/-- Settles O11: what decodes matches its instruction's row, and what matches a row decodes as its pattern does. -/
theorem legalOpcodesAreTheRows : Obligations.LegalOpcodesAreTheRows := by
  refine ⟨fun o => ⟨fun ⟨i, h⟩ => ?_, fun ⟨row, hmem, h⟩ => ?_⟩, fun o i => exists_rowOf_of_decode, rfl, by decide⟩
  · obtain ⟨row, hmem, -, hm⟩ := exists_rowOf_of_decode h
    exact ⟨row, hmem, hm⟩
  · exact Option.isSome_iff_exists.1 (isSome_decode_of_match hmem h)

/-- Settles O13: a word is each of the encoder's forms of its own fields. -/
theorem fieldsRecompose : Obligations.FieldsRecompose := by
  intro o
  rw [← toNat_wordXyn_eq_or, ← toNat_wordNnn_eq_or, ← toNat_wordXkk_eq_or, wordXyn_fields, wordNnn_fields, wordXkk_fields]
  exact ⟨rfl, rfl, rfl⟩

end Sys2Proof.Machine
end

section
/-! Returns, jumps and skips (40_control_flow.md): each writes pc, 00EE also sp, and nothing else. -/

namespace Sys2Proof.Machine

/-! ### A row of the opcode map -/

/-- A row that fixes the whole word. -/
theorem decodes_of_word {pat : Word} {mk : Word → Instr} (h : decode pat = some (mk pat)) :
    Decodes pat 0xFFFF mk := by
  intro opc hm
  have ho : opc = pat := (BitVec.and_allOnes (x := opc)).symm.trans hm
  rw [ho, h]

/-! ### Writes of pc and the stack -/

section
variable (s : State)

theorem onlyChanges_setPc (w : Word) : OnlyChanges [.pc] [] s (s.setPc w) := by
  simp [OnlyChanges]

/-- A skip, taken or not, writes pc alone (R463). -/
theorem onlyChanges_skipIf (c : Bool) : OnlyChanges [.pc] [] s (s.skipIf c) := by
  simp [OnlyChanges]

theorem onlyChanges_pc_stack (w : Word) (slots : Vector Word 16) (n : Fin 17) :
    OnlyChanges [.pc, .stack] [] s { s with pc := w, stack := slots, sp := n } :=
  ⟨fun _ _ => rfl, by simp, fun _ => rfl, by simp, fun _ => rfl, fun _ => rfl, fun _ _ => rfl, fun _ _ => rfl,
    rfl, rfl, rfl, rfl, rfl, rfl⟩

/-! ### Skips on a comparison -/

theorem State.skipIf_beq_pc (a b : Byte) : (s.skipIf (a == b)).pc = if a = b then s.pc + 2 else s.pc := by
  simp

theorem State.skipIf_bne_pc (a b : Byte) : (s.skipIf (a != b)).pc = if a = b then s.pc else s.pc + 2 := by
  simp

end

/-! ### 00EE -/

/-- With an address held, 00EE pops it and clears no slot (R400, 10_state.md R119). -/
theorem exec_ret_of_pos {s : State} (h : 0 < s.sp.val) :
    exec .ret s = .next { s with sp := ⟨s.sp.val - 1, by omega⟩, pc := s.stack[s.sp.val - 1] } :=
  dif_neg h.ne'

theorem exec_ret_of_zero {s : State} (h : s.sp.val = 0) :
    exec .ret s = .fault (.stackUnderflow (s.pc - 2) (encode .ret)) :=
  dif_pos h

/-! ### The statements -/

/-- Settles O23: a jump sets pc to nnn widened to 16 bits. -/
theorem jumpAbsolute : Obligations.JumpAbsolute := by
  refine ⟨decodes_of_op fun opc hop => ?_, fun s nnn => ⟨s.setPc (nnn.setWidth 16), rfl, ?_, onlyChanges_setPc s _⟩⟩
  · simp only [decode, hop]; rfl
  · exact BitVec.toNat_setWidth_of_le (by decide)

/-- Settles O26: the one word 0x00EE, and the two ways `exec` answers it, by sp. -/
theorem returnPopsAddress : Obligations.ReturnPopsAddress := by
  refine ⟨decodes_of_word rfl, fun s => ⟨fun hpos => ?_, exec_ret_of_zero⟩⟩
  exact ⟨_, exec_ret_of_pos hpos, rfl, rfl, rfl, onlyChanges_pc_stack s _ s.stack _⟩

/-- Settles O27: both rows skip on a comparison of a register with kk. -/
theorem skipOnByte : Obligations.SkipOnByte := by
  refine ⟨decodes_of_op fun opc hop => ?_, decodes_of_op fun opc hop => ?_, fun s x kk => ⟨?_, ?_⟩⟩
  · simp only [decode, hop]; rfl
  · simp only [decode, hop]; rfl
  · exact ⟨_, rfl, s.skipIf_beq_pc (s.getV x) kk, onlyChanges_skipIf s _⟩
  · exact ⟨_, rfl, s.skipIf_bne_pc (s.getV x) kk, onlyChanges_skipIf s _⟩

/-- Settles O28: both rows fix n = 0 and skip on a comparison of two registers. -/
theorem skipOnRegister : Obligations.SkipOnRegister := by
  refine ⟨decodes_of_op_n fun opc hop hn => ?_, decodes_of_op_n fun opc hop hn => ?_, fun s x y => ⟨?_, ?_⟩⟩
  · simp only [decode, hop, hn]; rfl
  · simp only [decode, hop, hn]; rfl
  · exact ⟨_, rfl, s.skipIf_beq_pc (s.getV x) (s.getV y), onlyChanges_skipIf s _⟩
  · exact ⟨_, rfl, s.skipIf_bne_pc (s.getV x) (s.getV y), onlyChanges_skipIf s _⟩

end Sys2Proof.Machine
end

section
/-! Register loads, arithmetic and logic (41_alu.md): each writes Vx, and the sums and differences of two registers VF
after it. -/

namespace Sys2Proof.Machine

/-! ### The 8xyN rows -/

/-- A row of major nibble 8 decodes as `decode8` answers its N (30_encoding.md R311). -/
theorem decodes_of_decode8 {pat : Word} {mk : Reg → Reg → Instr} (hop : fieldOp pat = 8)
    (h : ∀ x y, decode8 x y (fieldN pat).val = some (mk x y)) :
    Decodes pat 0xF00F (fun w => mk (fieldX w) (fieldY w)) := by
  refine decodes_of_op_n fun opc hopc hn => ?_
  rw [← h, ← hn]
  simp only [decode, hopc, hop]
  rfl

/-! ### A register written, and the flag after it -/

section
variable (s : State)

theorem onlyChanges_setV (x : Reg) (b : Byte) : OnlyChanges [] [x] s (s.setV x b) := by
  simp +contextual [OnlyChanges, State.getV_setV]

theorem onlyChanges_setV_setFlag (x : Reg) (b : Byte) (flag : Bool) :
    OnlyChanges [] [x, vf] s ((s.setV x b).setFlag flag) := by
  simp +contextual [OnlyChanges, State.getV_setV, State.getV_setFlag]

theorem State.getV_vf_setFlag_decide (p : Prop) [Decidable p] :
    (s.setFlag (decide p)).getV vf = if p then 1 else 0 := by
  simp [State.getV_setFlag, flagByte]

/-- The flag, written last, leaves the result in every register but VF (R571). -/
theorem State.getV_setV_setFlag {x : Reg} (hx : x ≠ vf) (b : Byte) (flag : Bool) :
    ((s.setV x b).setFlag flag).getV x = b := by
  simp [State.getV_setFlag, hx]

end

/-! ### Byte arithmetic by value -/

/-- The difference of two bytes by value, as the spec writes it: the integer difference modulo 256 (R535, R545). -/
theorem toNat_sub_emod (a b : Byte) : ((a - b).toNat : Int) = ((a.toNat : Int) - b.toNat) % 256 := by
  have hb := b.isLt
  rw [BitVec.toNat_sub]
  omega

/-! ### The statements -/

/-- Settles O16: both rows write Vx alone, with kk or with Vy. -/
theorem loadByteAndMove : Obligations.LoadByteAndMove := by
  refine ⟨decodes_of_op fun opc hop => ?_, decodes_of_decode8 rfl fun _ _ => rfl, fun s x y kk => ⟨?_, ?_⟩⟩
  · simp only [decode, hop]; rfl
  · exact ⟨_, rfl, s.getV_setV_self x kk, onlyChanges_setV s x _⟩
  · exact ⟨_, rfl, s.getV_setV_self x (s.getV y), onlyChanges_setV s x _⟩

/-- Settles O17: the byte sum is the sum modulo 256, and Vx alone is written. -/
theorem addByteWrapsWithoutFlag : Obligations.AddByteWrapsWithoutFlag := by
  refine ⟨decodes_of_op fun opc hop => ?_, fun s x kk => ⟨s.setV x (s.getV x + kk), rfl, ?_, onlyChanges_setV s x _⟩⟩
  · simp only [decode, hop]; rfl
  · rw [State.getV_setV_self, BitVec.toNat_add]

/-- Settles O18: each row writes Vx alone, and the bitwise operations on bytes are those on their values. -/
theorem logicOperations : Obligations.LogicOperations := by
  refine ⟨decodes_of_decode8 rfl fun _ _ => rfl, decodes_of_decode8 rfl fun _ _ => rfl,
    decodes_of_decode8 rfl fun _ _ => rfl, fun s x y => ⟨?_, ?_, ?_⟩⟩
  · refine ⟨s.setV x (s.getV x ||| s.getV y), rfl, ?_, onlyChanges_setV s x _⟩
    rw [State.getV_setV_self, BitVec.toNat_or]
  · refine ⟨s.setV x (s.getV x &&& s.getV y), rfl, ?_, onlyChanges_setV s x _⟩
    rw [State.getV_setV_self, BitVec.toNat_and]
  · refine ⟨s.setV x (s.getV x ^^^ s.getV y), rfl, ?_, onlyChanges_setV s x _⟩
    rw [State.getV_setV_self, BitVec.toNat_xor]

/-- Settles O19: the sum goes to Vx first and the carry of the old operands to VF last. -/
theorem addSetsCarry : Obligations.AddSetsCarry := by
  refine ⟨decodes_of_decode8 rfl fun _ _ => rfl, fun s x y =>
    ⟨_, rfl, State.getV_vf_setFlag_decide _ _, fun hx => ?_, onlyChanges_setV_setFlag s x _ _⟩⟩
  rw [State.getV_setV_setFlag s hx, BitVec.toNat_add]

/-- Settles O20: the difference goes to Vx first and the not-borrow of the old operands to VF last. -/
theorem subtractSetsNotBorrow : Obligations.SubtractSetsNotBorrow := by
  refine ⟨decodes_of_decode8 rfl fun _ _ => rfl, decodes_of_decode8 rfl fun _ _ => rfl, fun s x y => ⟨?_, ?_⟩⟩
  · refine ⟨_, rfl, State.getV_vf_setFlag_decide _ _, fun hx => ?_, onlyChanges_setV_setFlag s x _ _⟩
    rw [State.getV_setV_setFlag s hx, toNat_sub_emod]
  · refine ⟨_, rfl, State.getV_vf_setFlag_decide _ _, fun hx => ?_, onlyChanges_setV_setFlag s x _ _⟩
    rw [State.getV_setV_setFlag s hx, toNat_sub_emod]

end Sys2Proof.Machine
end

section
/-! The index register (42_index_memory.md): a load of I writes I alone. -/

namespace Sys2Proof.Machine

/-! ### A load of I -/

theorem onlyChanges_setIndex (s : State) (w : Word) : OnlyChanges [.index] [] s (s.setIndex w) := by
  simp [OnlyChanges]

/-- Annn takes no fault: nnn has 12 bits, so it passes the check of R601. -/
theorem exec_ldI (s : State) (nnn : BitVec 12) : exec (.ldI nnn) s = .next (s.setIndex (nnn.setWidth 16)) := by
  have hle : nnn.toNat ≤ 0xFFF := Nat.le_of_lt_succ nnn.isLt
  rw [← BitVec.ofNat_toNat]
  exact State.indexLoad_of_le hle

/-! ### The statements -/

/-- Settles O31: Annn sets I to nnn widened to 16 bits. -/
theorem loadIndex : Obligations.LoadIndex := by
  refine ⟨decodes_of_op fun opc hop => ?_, fun s nnn => ⟨_, exec_ldI s nnn, ?_, onlyChanges_setIndex s _⟩⟩
  · simp only [decode, hop]; rfl
  · exact BitVec.toNat_setWidth_of_le (by decide)

end Sys2Proof.Machine
end

section
/-! The timers and the keypad (43_timers_keypad.md): the transfers, the skips on a key and the wait write one register,
one timer or pc, and both timers tick at the end of a completed step alone. -/

namespace Sys2Proof.Machine

/-! ### The ExKK and FxKK rows -/

/-- A row of major nibble E decodes as `decodeE` answers its KK (30_encoding.md R311). -/
theorem decodes_of_decodeE {pat : Word} {mk : Reg → Instr} (hop : fieldOp pat = 0xE)
    (h : ∀ x, decodeE x (fieldKk pat).toNat = some (mk x)) : Decodes pat 0xF0FF (fun w => mk (fieldX w)) := by
  refine decodes_of_op_kk fun opc hopc hkk => ?_
  rw [← h, ← hkk]
  simp only [decode, hopc, hop]
  rfl

/-- A row of major nibble F decodes as `decodeF` answers its KK (R311). -/
theorem decodes_of_decodeF {pat : Word} {mk : Reg → Instr} (hop : fieldOp pat = 0xF)
    (h : ∀ x, decodeF x (fieldKk pat).toNat = some (mk x)) : Decodes pat 0xF0FF (fun w => mk (fieldX w)) := by
  refine decodes_of_op_kk fun opc hopc hkk => ?_
  rw [← h, ← hkk]
  simp only [decode, hopc, hop]
  rfl

/-! ### Writes of a timer -/

section
variable (s : State)

theorem onlyChanges_setDt (b : Byte) : OnlyChanges [.dt] [] s (s.setDt b) := by
  simp [OnlyChanges]

theorem onlyChanges_setSt (b : Byte) : OnlyChanges [.st] [] s (s.setSt b) := by
  simp [OnlyChanges]

end

/-- Every instruction but Fx15 leaves the delay timer (10_state.md R120). -/
theorem exec_dt {i : Instr} {s t : State} (h : exec i s = .next t) (hi : ∀ x, i ≠ .ldDt x) : t.dt = s.dt := by
  cases i
  case ldDt x => exact absurd rfl (hi x)
  case ret | call | skp | sknp | ldKey | ldI | ldFont | addI =>
    simp only [exec, execRet, execCall, execSkp, execSknp, execLdKey, execLdI, execLdFont, execAddI, State.indexLoad,
      State.indexAdd] at h
    split at h <;> cases h <;> simp
  case ldBcd | store =>
    simp only [exec, execLdBcd, execStore, orFault_eq_next] at h
    obtain ⟨-, -, h⟩ := h
    cases h
    exact s.memWriteAll_dt _ _
  case load x =>
    simp only [exec, execLoad, orFault_eq_next] at h
    obtain ⟨-, h⟩ := h
    cases h
    exact s.loadRegs_dt _ x
  case drw =>
    obtain ⟨-, fb, flag, rfl⟩ := exec_drw_next h
    rfl
  all_goals cases h; simp

/-! ### The tick of a step and of a transaction -/

/-- A step that faults changes the status alone (60_exceptions.md R901). -/
theorem transact_step_of_fault {s : State} {rand : Byte} {f : Fault}
    (h : step { s with randIn := some rand } = .fault f) :
    transact s (.step rand) = (s.enterFaulted f, .fault f) := by
  simp only [transact, State.stepWith, h]

/-- A ROM load writes memory and the phase, or nothing (70_reset_and_hazards.md R1010 to R1012). -/
theorem transact_loadRom_timers (s : State) (rom : List Byte) :
    (transact s (.loadRom rom)).1.dt = s.dt ∧ (transact s (.loadRom rom)).1.st = s.st := by
  simp only [transact, State.loadRomWith, State.loadRom]
  split_ifs <;> simp

/-! ### A step that completes -/

/-- The step of an instruction that completes is the instruction, then the end of the step (R333). -/
theorem step_of_exec {i : Instr} {s u : State} (hr : s.Runs i) (h : exec i s.advance = .next u) :
    step s = .next u.endStep := by
  rw [step_of_runs hr, h]
  rfl

/-! ### The keypad -/

/-- Ex9E and ExA1 on the number of key k (R740, R745). -/
theorem exec_skp_of_key {s : State} {x : Reg} {k : Fin 16} (h : (s.getV x).toNat = k.val) :
    exec (.skp x) s = .next (s.skipIf (s.keyDown k)) := by
  simp only [exec, execSkp, State.isPressed_of_eq h]

theorem exec_sknp_of_key {s : State} {x : Reg} {k : Fin 16} (h : (s.getV x).toNat = k.val) :
    exec (.sknp x) s = .next (s.skipIf (!s.keyDown k)) := by
  simp only [exec, execSknp, State.isPressed_of_eq h]

/-- Above 15 there is no key (R730). -/
theorem exec_skp_of_gt {s : State} {x : Reg} (h : 15 < (s.getV x).toNat) :
    exec (.skp x) s = .fault (.keyRange (s.pc - 2) (encode (.skp x)) (s.getV x)) := by
  simp only [exec, execSkp, State.isPressed_of_gt h]
  rfl

theorem exec_sknp_of_gt {s : State} {x : Reg} (h : 15 < (s.getV x).toNat) :
    exec (.sknp x) s = .fault (.keyRange (s.pc - 2) (encode (.sknp x)) (s.getV x)) := by
  simp only [exec, execSknp, State.isPressed_of_gt h]
  rfl

/-- Fx0A with a key down takes what the scan finds (R750). -/
theorem exec_ldKey_of_pressed {s : State} {x : Reg} {k : Fin 16} (h : s.pressedKey = some k) :
    exec (.ldKey x) s = .next (s.setV x (BitVec.ofNat 8 k.val)) := by
  simp only [exec, execLdKey, h]

theorem exec_ldKey_of_none {s : State} {x : Reg} (h : s.pressedKey = none) :
    exec (.ldKey x) s = .next (s.setPc (s.pc - 2)) := by
  simp only [exec, execLdKey, h]

/-! ### The statements -/

/-- Settles O8: `endStep` ticks what the instruction left, a fault keeps the state before it, and no other transaction
but construct writes a timer. -/
theorem timersTickOncePerStep : Obligations.TimersTickOncePerStep := by
  obtain ⟨-, -, step_st, -, -⟩ := soundTimerUnread
  refine ⟨toNat_tick, fun s t i hr h => ⟨?_, step_st i s t hr h⟩, fun s rand f h => ?_, fun s tx hc hs => ?_⟩
  · obtain ⟨u, hu, rfl⟩ := step_next_of_runs hr h
    split
    · cases hu
      rfl
    · exact congrArg tick (exec_dt (s := s.advance) hu ‹_›)
  · rw [transact_step_of_fault h]
    exact ⟨rfl, rfl⟩
  · cases tx with
    | construct p => exact absurd rfl (hc p)
    | loadRom rom => exact transact_loadRom_timers s rom
    | setKey k down => exact ⟨rfl, rfl⟩
    | step rand => exact absurd rfl (hs rand)
    | inspect => exact ⟨rfl, rfl⟩

/-- Settles O38: each transfer writes its destination alone, and the step's end then ticks both timers. -/
theorem timerTransfers : Obligations.TimerTransfers := by
  refine ⟨decodes_of_decodeF rfl fun _ => rfl, decodes_of_decodeF rfl fun _ => rfl,
    decodes_of_decodeF rfl fun _ => rfl, fun s x => ⟨?_, ?_, ?_⟩,
    fun s x => ⟨fun hr => ?_, fun hr => ?_, fun hr => ?_⟩⟩
  · exact ⟨_, rfl, s.getV_setV_self x s.dt, onlyChanges_setV s x _⟩
  · exact ⟨_, rfl, rfl, onlyChanges_setDt s _⟩
  · exact ⟨_, rfl, rfl, onlyChanges_setSt s _⟩
  · exact ⟨_, step_of_exec hr rfl, State.getV_setV_self _ x s.dt, toNat_tick s.dt⟩
  · exact ⟨_, step_of_exec hr rfl, toNat_tick (s.getV x)⟩
  · exact ⟨_, step_of_exec hr rfl, toNat_tick (s.getV x)⟩

/-- Settles O39: both rows skip on the level `isPressed` answers, and fault where it answers none. -/
theorem skipOnKey : Obligations.SkipOnKey := by
  refine ⟨decodes_of_decodeE rfl fun _ => rfl, decodes_of_decodeE rfl fun _ => rfl,
    fun s x => ⟨fun k hk => ⟨?_, ?_⟩, fun h => ⟨exec_skp_of_gt h, exec_sknp_of_gt h⟩⟩⟩
  · exact ⟨_, exec_skp_of_key hk, s.skipIf_pc _, onlyChanges_skipIf s _⟩
  · refine ⟨_, exec_sknp_of_key hk, ?_, onlyChanges_skipIf s _⟩
    cases s.keyDown k <;> rfl

/-- Settles O40: the two answers of the scan, the lowest key down or none. -/
theorem waitForKey : Obligations.WaitForKey := by
  refine ⟨decodes_of_decodeF rfl fun _ => rfl, fun s x => ⟨fun k hdown hlow => ?_, fun hup => ?_⟩⟩
  · have hk : s.pressedKey = some k := State.pressedKey_eq_some.2 ⟨hdown, hlow⟩
    refine ⟨_, exec_ldKey_of_pressed hk, ?_, onlyChanges_setV s x _⟩
    rw [State.getV_setV_self, BitVec.toNat_ofNat, Nat.mod_eq_of_lt (by omega)]
  · exact ⟨_, exec_ldKey_of_none (State.pressedKey_eq_none.2 hup), rfl, onlyChanges_setPc s _⟩

end Sys2Proof.Machine
end

section
/-! The display (44_display.md): 00E0 clears the frame buffer and writes nothing else. -/

namespace Sys2Proof.Machine

/-! ### A clear of the frame buffer -/

/-- The cleared buffer lists no pixel, and an unlisted pixel is off (R800). -/
@[simp] theorem FrameBuffer.read_clear (p : Nat) : FrameBuffer.read FrameBuffer.clear p = 0x00 := rfl

theorem onlyChanges_setFb (s : State) (cells : Cells) : OnlyChanges [.fb] [] s (s.setFb cells) := by
  simp [OnlyChanges]

/-! ### The statements -/

/-- Settles O42: the one word 0x00E0, and a cleared frame buffer in an otherwise unchanged state. -/
theorem clearScreen : Obligations.ClearScreen := by
  refine ⟨decodes_of_word rfl, fun s => ⟨s.setFb FrameBuffer.clear, rfl, fun px _ py _ => ?_, onlyChanges_setFb s _⟩⟩
  exact FrameBuffer.read_clear (py * fbWidth + px)

end Sys2Proof.Machine
end

section
/-! The faulted status (60_exceptions.md R904): no step is admitted, and only a new construction clears it. -/

namespace Sys2Proof.Machine

/-! ### A transaction on a faulted block -/

section
variable {s : State} {record : Fault} (h : s.status = .faulted record)
include h

/-- The status is what `step` asks first, so the fetch plays no part. -/
theorem step_of_faulted : step s = .refused (.stepNotAdmitted record) := by
  simp only [step, h]

/-- The host's random byte is not the status, so the step with it is refused as well, and the state stays. -/
theorem transact_step_of_faulted (rand : Byte) :
    transact s (.step rand) = (s, .notAdmitted (.stepNotAdmitted record)) := by
  have hstep : step { s with randIn := some rand } = .refused (.stepNotAdmitted record) := step_of_faulted h
  simp only [transact, State.stepWith, hstep]

end

/-- A ROM load writes memory and the phase, or nothing (70_reset_and_hazards.md R1010 to R1012). -/
theorem transact_loadRom_status (s : State) (rom : List Byte) :
    (transact s (.loadRom rom)).1.status = s.status := by
  simp only [transact, State.loadRomWith, State.loadRom]
  split_ifs <;> simp

/-! ### The statement -/

/-- Settles O5: a step is refused before the fetch, and of the other transactions only construct writes the status. -/
theorem faultIsTerminal : Obligations.FaultIsTerminal := by
  refine fun s record h => ⟨step_of_faulted h, transact_step_of_faulted h, fun tx hc => ?_, rfl, fun _ => rfl⟩
  cases tx with
  | construct p => exact absurd rfl (hc p)
  | loadRom rom => exact (transact_loadRom_status s rom).trans h
  | setKey k down => exact (s.setKey_status k down).trans h
  | step rand => rw [transact_step_of_faulted h]; exact h
  | inspect => exact h

end Sys2Proof.Machine
end

section
/-! Reset and the ROM load (20_memory.md R210, R213; 70_reset_and_hazards.md R1011, R1012). -/

namespace Sys2Proof.Machine

/-! ### The address map -/

/-- Inside the font table an unwritten byte is FONT's (R210). -/
theorem Memory.unlisted_font (font : Font) (k : Fin 80) : Memory.unlisted font (0x050 + k.val) = font[k.val] := by
  rw [Memory.unlisted, dif_pos (by omega)]
  simp

/-- Outside the font table an unwritten byte is 0 (R213). -/
theorem Memory.unlisted_of_outside (font : Font) {a : Nat} (h : a < 0x050 ∨ 0x0A0 ≤ a) :
    Memory.unlisted font a = 0 := by
  rw [Memory.unlisted, dif_neg (by omega)]

/-- Construction lists no byte, so every address reads as unwritten. -/
theorem State.memRead_construct (p : Params) (a : Nat) :
    (State.construct p).memRead a = Memory.unlisted p.font a := rfl

/-! ### A ROM load in phase fresh -/

section
variable {s : State} {rom : List Byte} (hp : s.phase = .fresh)
include hp

/-- A length in range is copied from 0x200 on (R1012). -/
theorem transact_loadRom_of_length (h1 : 1 ≤ rom.length) (h2 : rom.length ≤ 3584) :
    transact s (.loadRom rom) = ({ s.memWriteAll 0x200 rom with phase := .loaded }, .ok) := by
  simp only [transact, State.loadRomWith, State.loadRom_of_valid hp (romWellFormed_iff.2 ⟨h1, h2⟩)]

/-- A length out of range is a configuration error, and the state stays (R1011). -/
theorem transact_loadRom_of_length_out (h : rom.length = 0 ∨ 3584 < rom.length) :
    transact s (.loadRom rom) = (s, .configurationError) := by
  have hbad : ¬ romWellFormed rom = true := by
    rw [romWellFormed_iff]
    omega
  simp only [transact, State.loadRomWith, State.loadRom, if_pos hp, if_neg hbad]

end

/-! ### The statements -/

/-- Settles O2: construction reads as unwritten memory, and a valid load is one run of bytes written at 0x200. -/
theorem memoryMapAndRomLoad : Obligations.MemoryMapAndRomLoad := by
  refine ⟨fun p a _ => ⟨fun h => ?_, fun k hk => ?_, fun h => ?_⟩, fun s rom hp h1 h2 =>
    ⟨_, transact_loadRom_of_length hp h1 h2, fun k hk => ?_, fun a ha => ?_, ?_⟩⟩
  · rw [State.memRead_construct, Memory.unlisted_of_outside p.font (.inl h)]
  · rw [State.memRead_construct, hk, Memory.unlisted_font]
  · rw [State.memRead_construct, Memory.unlisted_of_outside p.font (.inr h)]
  · refine (State.memRead_memWriteAll rom s 0x200 (0x200 + k)).trans ?_
    rw [dif_pos (by omega)]
    simp
  · exact State.memRead_memWriteAll_outside rom s 0x200 a ha
  · exact congrArg (fun u : State => { u with phase := .loaded }) (State.memWriteAll_eq rom s 0x200)

/-- Settles O3: the state that stays is still fresh, so the next load is judged by its own length alone. -/
theorem romLengthOutOfRange : Obligations.RomLengthOutOfRange := by
  intro s rom hp hlen
  have herr := transact_loadRom_of_length_out hp hlen
  refine ⟨herr, fun rom' h1 h2 => ?_⟩
  rw [herr, transact_loadRom_of_length hp h1 h2]

end Sys2Proof.Machine
end

section
/-! The decoder on the encoder's words (30_encoding.md R310, R311), the words it rejects (R320), and the rows of the map
against one another. -/

namespace Sys2Proof.Machine

/-! ### The decoder on the words of the encoder's forms -/

section
variable (x y n : Reg) (kk : Byte)

@[simp] theorem decode_wordXyn_5 : decode (wordXyn 0x5 x y 0) = some (.seReg x y) := by
  simp [decode]

@[simp] theorem decode_wordXyn_8 : decode (wordXyn 0x8 x y n) = decode8 x y n.val := by
  simp [decode]

@[simp] theorem decode_wordXyn_9 : decode (wordXyn 0x9 x y 0) = some (.sneReg x y) := by
  simp [decode]

@[simp] theorem decode_wordXkk_E : decode (wordXkk 0xE x kk) = decodeE x kk.toNat := by
  simp [decode]

@[simp] theorem decode_wordXkk_F : decode (wordXkk 0xF x kk) = decodeF x kk.toNat := by
  simp [decode]

end

/-- Every form fixes the fields its rows are told apart by, so the decoder finds the row and reads the operands back. -/
theorem decode_encode (i : Instr) : decode (encode i) = some i := by
  cases i
  case cls | ret => rfl
  case jp | call | ldI | jpV0 => simp [encode, decode]
  case seByte | sneByte | ldByte | addByte | rnd => simp [encode, decode]
  case drw => simp [encode, decode]
  case seReg x y => exact decode_wordXyn_5 x y
  case sneReg x y => exact decode_wordXyn_9 x y
  case ldReg | orReg | andReg | xorReg | addReg | sub | subn | shr | shl => exact decode_wordXyn_8 ..
  case skp | sknp => exact decode_wordXkk_E ..
  case ldFromDt | ldKey | ldDt | ldSt | addI | ldFont | ldBcd | store | load => exact decode_wordXkk_F ..

/-- The two bytes of an instruction, high byte first, are read back with what follows them (20_memory.md R235). -/
theorem decodeBytes_encodeBytes (i : Instr) (rest : List Byte) :
    decodeBytes (encodeBytes i ++ rest) = .ok (i, rest) := by
  simp [encodeBytes, decodeBytes, decode_encode]

/-! ### What does not decode -/

theorem decode8_eq_none {x y n : Reg} : decode8 x y n.val = none ↔ n ∈ ([8, 9, 10, 11, 12, 13, 15] : List Reg) := by
  fin_cases n <;> simp [decode8]

theorem decodeE_eq_none {x : Reg} {kk : Byte} :
    decodeE x kk.toNat = none ↔ kk ∉ ([0x9E, 0xA1] : List Byte) := by
  simp only [List.mem_cons, List.not_mem_nil, or_false, ← BitVec.toNat_inj, BitVec.reduceToNat]
  unfold decodeE
  split <;> simp_all

theorem decodeF_eq_none {x : Reg} {kk : Byte} :
    decodeF x kk.toNat = none ↔ kk ∉ ([0x07, 0x0A, 0x15, 0x18, 0x1E, 0x29, 0x33, 0x55, 0x65] : List Byte) := by
  simp only [List.mem_cons, List.not_mem_nil, or_false, ← BitVec.toNat_inj, BitVec.reduceToNat]
  unfold decodeF
  split <;> simp_all

/-! ### Two rows of the map -/

/-- Two different rows differ on a bit that both fix. -/
theorem eq_of_pat_and_mask : ∀ a ∈ opcodeMap, ∀ b ∈ opcodeMap, a.pat &&& b.mask = b.pat &&& a.mask → a = b := by
  decide

/-! ### The statements -/

/-- Settles O10: on words by the form of each instruction's word, and on bytes since a word is its two bytes. -/
theorem decodeInvertsEncode : Obligations.DecodeInvertsEncode :=
  ⟨decode_encode, decodeBytes_encodeBytes⟩

/-- Settles O12: a word in both rows has, on the bits both fix, the pattern of each. -/
theorem opcodeRowsExclusive : Obligations.OpcodeRowsExclusive := by
  intro opc a b ha hb hma hmb
  refine eq_of_pat_and_mask a ha b hb ?_
  rw [← hma, ← hmb, BitVec.and_assoc, BitVec.and_assoc, BitVec.and_comm a.mask]

/-- Settles O14: the 22 words evaluated. -/
theorem specVectorsDecode : Obligations.SpecVectorsDecode := by
  unfold Obligations.SpecVectorsDecode
  decide

/-- Settles O15: by the major opcode; those with rows of their own for n or kk reject the values no row has. -/
theorem illegalOpcodesListed : Obligations.IllegalOpcodesListed := by
  intro opc
  generalize hop : (fieldOp opc).toNat = op
  have hlt : op < 16 := hop ▸ (fieldOp opc).isLt
  have hop' := fieldOp_eq_ofNat hop
  interval_cases op
  · simp only [decode, hop']
    split_ifs <;> simp_all
  all_goals simp [decode, hop', decode8_eq_none, decodeE_eq_none, decodeF_eq_none]

end Sys2Proof.Machine
end

section
/-! Calls and computed jumps, and the pc after every completed step (40_control_flow.md, 10_state.md R111). -/

namespace Sys2Proof.Machine

/-! ### Bnnn and 2nnn -/

/-- V0 plus nnn is at most 0x10FE, so 16 bits hold the sum (R470). -/
theorem toNat_jpV0_target (b : Byte) (nnn : BitVec 12) :
    (b.setWidth 16 + nnn.setWidth 16).toNat = b.toNat + nnn.toNat := by
  have hb := b.isLt
  have hn := nnn.isLt
  rw [BitVec.toNat_add, BitVec.toNat_setWidth_of_le (by decide), BitVec.toNat_setWidth_of_le (by decide)]
  omega

/-- With a slot free, 2nnn pushes pc, that is A + 2, and jumps (R420). -/
theorem exec_call_of_lt {s : State} {nnn : BitVec 12} (h : s.sp.val < 16) :
    exec (.call nnn) s = .next { s with
      pc := nnn.setWidth 16, stack := s.stack.set s.sp.val s.pc h, sp := ⟨s.sp.val + 1, by omega⟩ } :=
  dif_neg h.ne

theorem exec_call_of_full {s : State} {nnn : BitVec 12} (h : s.sp.val = 16) :
    exec (.call nnn) s = .fault (.stackOverflow (s.pc - 2) (encode (.call nnn))) :=
  dif_pos h

/-- A call that completes had a slot free. -/
theorem exec_call_next {s t : State} {nnn : BitVec 12} (h : exec (.call nnn) s = .next t) :
    ∃ hlt : s.sp.val < 16, t = { s with
      pc := nnn.setWidth 16, stack := s.stack.set s.sp.val s.pc hlt, sp := ⟨s.sp.val + 1, by omega⟩ } := by
  by_cases hfull : s.sp.val = 16
  · rw [exec_call_of_full hfull] at h
    cases h
  · have hlt : s.sp.val < 16 := by omega
    rw [exec_call_of_lt hlt] at h
    cases h
    exact ⟨hlt, rfl⟩

/-- A return that completes had an address to pop. -/
theorem exec_ret_next {s t : State} (h : exec .ret s = .next t) :
    0 < s.sp.val ∧ t = { s with sp := ⟨s.sp.val - 1, by omega⟩, pc := s.stack[s.sp.val - 1] } := by
  by_cases hzero : s.sp.val = 0
  · rw [exec_ret_of_zero hzero] at h
    cases h
  · have hpos : 0 < s.sp.val := by omega
    rw [exec_ret_of_pos hpos] at h
    cases h
    exact ⟨hpos, rfl⟩

/-! ### Skips on a key that complete -/

section
variable {s t : State} {x : Reg}

theorem exec_skp_next (h : exec (.skp x) s = .next t) :
    ∃ k : Fin 16, (s.getV x).toNat = k.val ∧ t = s.skipIf (s.keyDown k) := by
  by_cases hk : 15 < (s.getV x).toNat
  · rw [exec_skp_of_gt hk] at h
    cases h
  · refine ⟨⟨(s.getV x).toNat, by omega⟩, rfl, ?_⟩
    rw [exec_skp_of_key (k := ⟨(s.getV x).toNat, by omega⟩) rfl] at h
    cases h
    rfl

theorem exec_sknp_next (h : exec (.sknp x) s = .next t) :
    ∃ k : Fin 16, (s.getV x).toNat = k.val ∧ t = s.skipIf (!s.keyDown k) := by
  by_cases hk : 15 < (s.getV x).toNat
  · rw [exec_sknp_of_gt hk] at h
    cases h
  · refine ⟨⟨(s.getV x).toNat, by omega⟩, rfl, ?_⟩
    rw [exec_sknp_of_key (k := ⟨(s.getV x).toNat, by omega⟩) rfl] at h
    cases h
    rfl

theorem State.namedKeyDown_iff {k : Fin 16} (hk : (s.getV x).toNat = k.val) :
    s.namedKeyDown x ↔ s.keyDown k = true := by
  constructor
  · rintro ⟨j, hj, hdown⟩
    have hjk : j = k := Fin.ext (hj.trans hk)
    rwa [← hjk]
  · exact fun hdown => ⟨k, hk.symm, hdown⟩

end

/-! ### The pc a completed instruction leaves -/

/-- The fetch's advance taken back is A (00_scope.md R16). -/
theorem State.advance_pc_sub (s : State) : s.advance.pc - 2 = s.pc :=
  BitVec.add_sub_cancel s.pc 2

section
variable {s : State} (hp : s.pc.toNat + 1 < 4096)
include hp

/-- A fetch in range is far from where a word wraps (R113). -/
theorem State.toNat_advance_pc : s.advance.pc.toNat = s.pc.toNat + 2 := by
  rw [State.advance_pc, BitVec.toNat_add]
  simp
  omega

theorem State.toNat_advance_skipIf_pc (c : Bool) :
    (s.advance.skipIf c).pc.toNat = s.pc.toNat + if c then 4 else 2 := by
  cases c with
  | false => exact State.toNat_advance_pc hp
  | true =>
    show (s.pc + 2 + 2).toNat = s.pc.toNat + 4
    rw [BitVec.toNat_add, BitVec.toNat_add]
    simp
    omega

/-- The table of R111, instruction by instruction: what an instruction does not write is the fetch's A + 2. -/
theorem pcAfter_of_exec {i : Instr} {u : State} (h : exec i s.advance = .next u) : s.PcAfter i u.pc.toNat := by
  have hadv := State.toNat_advance_pc hp
  cases i
  case jp nnn =>
    cases h
    exact BitVec.toNat_setWidth_of_le (by decide)
  case call nnn =>
    obtain ⟨-, rfl⟩ := exec_call_next h
    exact BitVec.toNat_setWidth_of_le (by decide)
  case ret =>
    obtain ⟨-, rfl⟩ := exec_ret_next h
    rfl
  case jpV0 nnn =>
    cases h
    exact toNat_jpV0_target (s.getV 0) nnn
  case seByte | seReg | sneByte | sneReg =>
    cases h
    exact (State.toNat_advance_skipIf_pc hp _).trans (by simp)
  case skp x =>
    obtain ⟨k, hk, rfl⟩ := exec_skp_next h
    have hkey := State.namedKeyDown_iff (s := s) hk
    have hskip := State.toNat_advance_skipIf_pc hp (s.keyDown k)
    refine ⟨fun hdown => hskip.trans ?_, fun hup => hskip.trans ?_⟩
    · rw [if_pos (hkey.1 hdown)]
    · rw [if_neg (mt hkey.2 hup)]
  case sknp x =>
    obtain ⟨k, hk, rfl⟩ := exec_sknp_next h
    have hkey := State.namedKeyDown_iff (s := s) hk
    have hskip := State.toNat_advance_skipIf_pc hp (!s.keyDown k)
    refine ⟨fun hdown => hskip.trans ?_, fun hup => hskip.trans ?_⟩
    · simp [hkey.1 hdown]
    · simp [mt hkey.2 hup]
  case ldKey x =>
    rcases hk : s.pressedKey with _ | k
    · have hup := State.pressedKey_eq_none.1 hk
      cases (exec_ldKey_of_none (s := s.advance) hk).symm.trans h
      refine ⟨fun ⟨j, hj⟩ => absurd hj (by simp [hup j]), fun _ => ?_⟩
      exact congrArg BitVec.toNat s.advance_pc_sub
    · obtain ⟨hdown, -⟩ := State.pressedKey_eq_some.1 hk
      cases (exec_ldKey_of_pressed (s := s.advance) hk).symm.trans h
      exact ⟨fun _ => hadv, fun hup => absurd hdown (by simp [hup k])⟩
  case ldI | ldFont | addI =>
    simp only [exec, execLdI, execLdFont, execAddI, State.indexLoad, State.indexAdd] at h
    split at h <;> cases h
    exact hadv
  case ldBcd | store =>
    simp only [exec, execLdBcd, execStore, orFault_eq_next] at h
    obtain ⟨-, -, h⟩ := h
    cases h
    exact (congrArg BitVec.toNat (State.memWriteAll_pc ..)).trans hadv
  case load =>
    simp only [exec, execLoad, orFault_eq_next] at h
    obtain ⟨-, h⟩ := h
    cases h
    exact hadv
  case drw =>
    obtain ⟨-, fb, flag, rfl⟩ := exec_drw_next h
    exact hadv
  all_goals cases h; exact hadv

end

/-! ### A step that leaves pc where it was -/

/-- An instruction that only takes the fetch's advance back leaves a step that ends where it began, so that the same
instruction runs again. -/
theorem step_holds_pc {i : Instr} {s : State} (hr : s.Runs i) (h : exec i s.advance = .next (s.advance.setPc s.pc)) :
    step s = .next s.endStep ∧ s.endStep.Runs i :=
  ⟨step_of_exec hr h, hr⟩

/-! ### The statements -/

/-- Settles O24: pc is V0 plus nnn, both widened to 16 bits. -/
theorem jumpIndexedByV0 : Obligations.JumpIndexedByV0 := by
  refine ⟨decodes_of_op fun opc hop => ?_, fun s nnn => ⟨_, rfl, toNat_jpV0_target (s.getV 0) nnn,
    onlyChanges_setPc s _⟩⟩
  simp only [decode, hop]
  rfl

/-- Settles O25: the two ways `exec` answers a call, by whether a slot is free. -/
theorem callPushesReturnAddress : Obligations.CallPushesReturnAddress := by
  refine ⟨decodes_of_op fun opc hop => ?_, fun s nnn => ⟨fun hlt => ?_, exec_call_of_full⟩⟩
  · simp only [decode, hop]
    rfl
  · refine ⟨_, exec_call_of_lt hlt, BitVec.toNat_setWidth_of_le (by decide), rfl, fun j => ?_,
      onlyChanges_pc_stack s _ _ _⟩
    simp only [Vector.getElem_set, eq_comm]

/-- Settles O29: a completed step is an instruction completed after the fetch, and the step's end leaves pc. -/
theorem programCounterAfterEachInstruction : Obligations.ProgramCounterAfterEachInstruction := by
  intro s t i hr h
  obtain ⟨u, hu, rfl⟩ := step_next_of_runs hr h
  obtain ⟨-, hp, -⟩ := hr
  have hpc := pcAfter_of_exec hp hu
  exact hpc

/-- Settles O30: nnn widened is pc, so the jump takes the advance back. -/
theorem jumpToSelfHolds : Obligations.JumpToSelfHolds := by
  intro s nnn hr hself
  have hpc : nnn.setWidth 16 = s.pc :=
    BitVec.eq_of_toNat_eq ((BitVec.toNat_setWidth_of_le (by decide)).trans hself)
  have hjump : exec (.jp nnn) s.advance = .next (s.advance.setPc s.pc) := by
    rw [← hpc]
    rfl
  obtain ⟨hstep, hrun⟩ := step_holds_pc hr hjump
  exact ⟨_, hstep, rfl, hrun⟩

/-- Settles O41: with no key down the wait takes the advance back, and with one it writes a register. -/
theorem keyWaitHeldByPc : Obligations.KeyWaitHeldByPc := by
  refine fun s x hr => ⟨fun hup => ?_, fun ⟨j, hj⟩ => ?_⟩
  · have hwait := exec_ldKey_of_none (s := s.advance) (x := x) (State.pressedKey_eq_none.2 hup)
    rw [State.advance_pc_sub] at hwait
    obtain ⟨hstep, hrun⟩ := step_holds_pc hr hwait
    exact ⟨_, hstep, rfl, hrun⟩
  · rcases hk : s.pressedKey with _ | k
    · exact absurd hj (by simp [State.pressedKey_eq_none.1 hk j])
    · have hstep := step_of_exec hr (exec_ldKey_of_pressed hk)
      exact ⟨_, hstep, (programCounterAfterEachInstruction s _ _ hr hstep).1 ⟨j, hj⟩⟩

end Sys2Proof.Machine
end

section
/-! I and the transfers between registers and memory (42_index_memory.md): what they write, the faults of their checks,
and the opcode after a block store. -/

namespace Sys2Proof.Machine

/-! ### The checks of a transfer -/

section
variable {s : State} {i : Instr} {len : Nat} {r : StepResult}

/-- Past the end of memory the range check is the first to fail (R910). -/
theorem orFault_checkRange_of_gt (h : 4096 < s.index.toNat + len) :
    orFault (s.checkRange i len) r = .fault (.memoryRange (s.pc - 2) (encode i) s.index.toNat len) := by
  rw [State.checkRange_eq, if_pos h, orFault_some]

theorem orFault_checkRange_of_le (h : s.index.toNat + len ≤ 4096) : orFault (s.checkRange i len) r = r := by
  rw [State.checkRange_eq_none.2 h, orFault_none]

/-- A write in range and admitted where it starts passes both checks. -/
theorem orFault_checks_of_pass (h : s.index.toNat + len ≤ 4096)
    (hlow : 0x200 ≤ s.index.toNat ∨ s.params.lowWrite = .write) :
    orFault (s.checkRange i len) (orFault (s.checkLowWrite i len) r) = r := by
  rw [orFault_checkRange_of_le h, State.checkLowWrite_eq_none.2 (.inr hlow), orFault_none]

/-- A write that starts below 0x200 under LOW_WRITE = `fault` is in range, and fails the second check. -/
theorem orFault_checks_of_low (h0 : 0 < len) (hlen : len ≤ 16) (hi : s.index.toNat < 0x200)
    (hw : s.params.lowWrite = .fault) :
    orFault (s.checkRange i len) (orFault (s.checkLowWrite i len) r) =
      .fault (.lowWrite (s.pc - 2) (encode i) s.index.toNat len) := by
  rw [orFault_checkRange_of_le (by omega), State.checkLowWrite_eq_some h0 hi hw, orFault_some]

/-- Both checks passed by a write of at least one byte say where it lies. -/
theorem checks_of_orFault_next {t : State} (h0 : 0 < len)
    (h : orFault (s.checkRange i len) (orFault (s.checkLowWrite i len) r) = .next t) :
    s.index.toNat + len ≤ 4096 ∧ (0x200 ≤ s.index.toNat ∨ s.params.lowWrite = .write) ∧ r = .next t := by
  obtain ⟨hrange, h⟩ := orFault_eq_next.1 h
  obtain ⟨hlow, h⟩ := orFault_eq_next.1 h
  refine ⟨State.checkRange_eq_none.1 hrange, ?_, h⟩
  exact (State.checkLowWrite_eq_none.1 hlow).resolve_left h0.ne'

end

/-! ### The transfers -/

section
variable (s : State)

theorem onlyChanges_memWriteAll (base : Nat) (bytes : List Byte) :
    OnlyChanges [.mem] [] s (s.memWriteAll base bytes) := by
  simp [OnlyChanges]

theorem State.memRead_memWriteAll_inside (base : Nat) {bytes : List Byte} {k : Nat} (hk : k < bytes.length) :
    (s.memWriteAll base bytes).memRead (base + k) = bytes[k] := by
  rw [State.memRead_memWriteAll, dif_pos ⟨by omega, by omega⟩]
  simp

/-- A byte read after the registers V0 to Vx are written from `base` on (R650). -/
theorem State.memRead_storeRegs (base p : Nat) (x : Reg) :
    (s.memWriteAll base (s.regsUpTo x)).memRead p =
      if h : base ≤ p ∧ p ≤ base + x.val then s.getV ⟨p - base, by omega⟩ else s.memRead p := by
  rw [State.memRead_memWriteAll]
  by_cases hp : base ≤ p ∧ p ≤ base + x.val
  · rw [dif_pos ⟨hp.1, by rw [State.regsUpTo_length]; omega⟩, dif_pos hp]
    exact s.regsUpTo_getElem x ⟨p - base, by omega⟩ _
  · rw [dif_neg hp, dif_neg]
    rw [State.regsUpTo_length]
    omega

/-- A block load writes the registers it names alone (R660). -/
theorem onlyChanges_loadRegs (base : Nat) (x : Reg) :
    OnlyChanges [] ((List.finRange 16).filter (fun k => decide (k ≤ x))) s (s.loadRegs base x) := by
  simp +contextual [OnlyChanges, State.getV_loadRegs]

/-- Each digit of a byte fits the byte it is stored in (R640). -/
theorem toNat_bcdDigits (b : Byte) :
    (bcdDigits b)[0].toNat = b.toNat / 100 ∧ (bcdDigits b)[1].toNat = b.toNat / 10 % 10 ∧
      (bcdDigits b)[2].toNat = b.toNat % 10 := by
  have hb := b.isLt
  simp only [bcdDigits, List.getElem_cons_zero, List.getElem_cons_succ, BitVec.toNat_ofNat]
  omega

/-- Fx29 takes no fault: the last address it can build is 0x54B (R601). -/
theorem exec_ldFont (x : Reg) :
    exec (.ldFont x) s = .next (s.setIndex (BitVec.ofNat 16 (fontBase + 5 * (s.getV x).toNat))) := by
  have hb := (s.getV x).isLt
  exact State.indexLoad_of_le (by simp only [fontBase]; omega)

end

section
variable {s t : State} {x : Reg}

/-- A block store that completes. -/
theorem exec_store_next (h : exec (.store x) s = .next t) :
    s.index.toNat + (x.val + 1) ≤ 4096 ∧ (0x200 ≤ s.index.toNat ∨ s.params.lowWrite = .write) ∧
      t = s.memWriteAll s.index.toNat (s.regsUpTo x) := by
  obtain ⟨hrange, hlow, h⟩ := checks_of_orFault_next (Nat.succ_pos _) h
  cases h
  exact ⟨hrange, hlow, rfl⟩

/-- A store of decimal digits that completes. -/
theorem exec_ldBcd_next (h : exec (.ldBcd x) s = .next t) :
    s.index.toNat + 3 ≤ 4096 ∧ (0x200 ≤ s.index.toNat ∨ s.params.lowWrite = .write) ∧
      t = s.memWriteAll s.index.toNat (bcdDigits (s.getV x)) := by
  obtain ⟨hrange, hlow, h⟩ := checks_of_orFault_next (by decide) h
  cases h
  exact ⟨hrange, hlow, rfl⟩

end

/-! ### The statements -/

/-- Settles O32: the two ways `index.add` ends, by whether 16 bits hold the sum. -/
theorem addToIndex : Obligations.AddToIndex := by
  refine ⟨decodes_of_decodeF rfl fun _ => rfl, fun s x => ⟨fun hle => ?_, State.indexAdd_of_gt⟩⟩
  refine ⟨_, State.indexAdd_of_le hle, ?_, onlyChanges_setIndex s _⟩
  rw [State.setIndex_index, BitVec.toNat_ofNat]
  omega

/-- Settles O33: the address is at most 0x54B, so `index.load` admits it and 16 bits hold it. -/
theorem loadGlyphAddress : Obligations.LoadGlyphAddress := by
  refine ⟨decodes_of_decodeF rfl fun _ => rfl, fun s x => ⟨_, exec_ldFont s x, ?_, onlyChanges_setIndex s _⟩⟩
  have hb := (s.getV x).isLt
  rw [State.setIndex_index, BitVec.toNat_ofNat, fontBase]
  omega

/-- Settles O34: the digits are a run of three bytes written at I, behind the two checks. -/
theorem storeDecimalDigits : Obligations.StoreDecimalDigits := by
  refine ⟨decodes_of_decodeF rfl fun _ => rfl, fun s x => ⟨fun hrange hlow => ?_, orFault_checkRange_of_gt,
    orFault_checks_of_low (by decide) (by decide)⟩⟩
  have hread := fun k (hk : k < (bcdDigits (s.getV x)).length) =>
    congrArg BitVec.toNat (s.memRead_memWriteAll_inside s.index.toNat hk)
  obtain ⟨h0, h1, h2⟩ := toNat_bcdDigits (s.getV x)
  refine ⟨_, orFault_checks_of_pass hrange hlow, ?_, ?_, ?_, fun p hp => ?_, onlyChanges_memWriteAll s _ _⟩
  · exact (hread 0 (by simp)).trans h0
  · exact (hread 1 (by simp)).trans h1
  · exact (hread 2 (by simp)).trans h2
  · exact State.memRead_memWriteAll_outside _ s _ p (by rw [bcdDigits_length]; omega)

/-- Settles O35: V0 to Vx are a run of bytes written at I, behind the two checks. -/
theorem storeRegisters : Obligations.StoreRegisters := by
  refine ⟨decodes_of_decodeF rfl fun _ => rfl, fun s x => ⟨fun hrange hlow => ?_,
    fun hgt => orFault_checkRange_of_gt hgt, orFault_checks_of_low (by omega) (by omega)⟩⟩
  refine ⟨_, orFault_checks_of_pass hrange hlow, fun k hk => ?_, fun p hp => ?_, onlyChanges_memWriteAll s _ _⟩
  · rw [State.memRead_storeRegs, dif_pos ⟨by omega, by omega⟩]
    simp
  · rw [State.memRead_storeRegs, dif_neg (by omega)]

/-- Settles O36: one load of V0 to Vx from I on, behind the range check. -/
theorem loadRegisters : Obligations.LoadRegisters := by
  refine ⟨decodes_of_decodeF rfl fun _ => rfl, fun s x => ⟨fun hrange => ?_, fun hgt => orFault_checkRange_of_gt hgt⟩⟩
  exact ⟨_, orFault_checkRange_of_le hrange, fun k => s.getV_loadRegs _ x k, onlyChanges_loadRegs s _ x⟩

/-- Settles O60: the fetch's two bytes are read from memory with V0 to Vx written at I, which no other part of the step
writes. -/
theorem storeSeenByNextFetch : Obligations.StoreSeenByNextFetch := by
  intro s t x hr h
  obtain ⟨u, hu, rfl⟩ := step_next_of_runs hr h
  obtain ⟨-, -, rfl⟩ := exec_store_next hu
  have hread := s.advance.memRead_storeRegs s.index.toNat
  exact congrArg₂ beWord (hread _ x) (hread _ x)

end Sys2Proof.Machine
end

section
/-! The sprite draw (44_display.md): its targets under each DRAW_EDGE, how Dxyn ends, and the draw made twice. -/

namespace Sys2Proof.Machine

/-! ### The draw in terms of its targets -/

/-- The places whose pixels Dxyn flips, or `none` where DRAW_EDGE = `fault` finds one off the screen (R813). -/
def State.drawTargets (s : State) (x y : Reg) (n : Nat) : Option (List (Nat × Nat)) :=
  edgeTargets s.params.drawEdge (spriteTargets (s.anchorX x) (s.anchorY y) 0 (s.spriteRows n))

/-- The state with the pixels at the targets flipped and the collision in VF (R812, R820). -/
def State.drawOnto (s : State) (targets : List (Nat × Nat)) : State :=
  (s.setFb (flipPixels s.fb targets).1).setFlag (flipPixels s.fb targets).2

theorem onlyChanges_drawOnto (s : State) (targets : List (Nat × Nat)) :
    OnlyChanges [.fb] [vf] s (s.drawOnto targets) := by
  simp +contextual [OnlyChanges, State.drawOnto, State.getV_setFlag]

section
variable {s t : State} {x y : Reg} {n : Fin 16}

/-- The range check comes before everything else of the draw (R910). -/
theorem exec_drw_of_gt (h : 4096 < s.index.toNat + n.val) :
    exec (.drw x y n) s = .fault (.memoryRange (s.pc - 2) (encode (.drw x y n)) s.index.toNat n.val) :=
  orFault_checkRange_of_gt h

theorem exec_drw_of_targets {targets : List (Nat × Nat)} (h : s.index.toNat + n.val ≤ 4096)
    (ht : s.drawTargets x y n.val = some targets) : exec (.drw x y n) s = .next (s.drawOnto targets) := by
  rw [State.drawTargets] at ht
  rw [exec_drw_of_range h, ht]
  rfl

theorem exec_drw_of_no_targets (h : s.index.toNat + n.val ≤ 4096) (ht : s.drawTargets x y n.val = none) :
    exec (.drw x y n) s = .fault (.drawEdge (s.pc - 2) (encode (.drw x y n)) (s.anchorX x) (s.anchorY y)) := by
  rw [State.drawTargets] at ht
  rw [exec_drw_of_range h, ht]

/-- The three ways a draw ends. -/
theorem exec_drw_cases (x y : Reg) (n : Fin 16) (s : State) :
    (4096 < s.index.toNat + n.val ∧
      exec (.drw x y n) s = .fault (.memoryRange (s.pc - 2) (encode (.drw x y n)) s.index.toNat n.val)) ∨
    (s.index.toNat + n.val ≤ 4096 ∧ s.drawTargets x y n.val = none ∧
      exec (.drw x y n) s = .fault (.drawEdge (s.pc - 2) (encode (.drw x y n)) (s.anchorX x) (s.anchorY y))) ∨
    (s.index.toNat + n.val ≤ 4096 ∧ ∃ targets, s.drawTargets x y n.val = some targets ∧
      exec (.drw x y n) s = .next (s.drawOnto targets)) := by
  rcases Nat.lt_or_ge 4096 (s.index.toNat + n.val) with h | h
  · exact .inl ⟨h, exec_drw_of_gt h⟩
  · rcases ht : s.drawTargets x y n.val with _ | targets
    · exact .inr (.inl ⟨h, rfl, exec_drw_of_no_targets h ht⟩)
    · exact .inr (.inr ⟨h, targets, rfl, exec_drw_of_targets h ht⟩)

/-- A draw that completes has read inside memory and found its targets. -/
theorem targets_of_exec_drw_next (h : exec (.drw x y n) s = .next t) :
    s.index.toNat + n.val ≤ 4096 ∧ ∃ targets, s.drawTargets x y n.val = some targets ∧ t = s.drawOnto targets := by
  rcases exec_drw_cases x y n s with ⟨-, he⟩ | ⟨-, -, he⟩ | ⟨hle, targets, ht, he⟩
  · cases he.symm.trans h
  · cases he.symm.trans h
  · cases he.symm.trans h
    exact ⟨hle, targets, ht, rfl⟩

end

/-! ### The targets under each DRAW_EDGE -/

theorem State.lt_of_spriteBit {s : State} {n c r : Nat} (h : s.spriteBit n c r = true) : r < n ∧ c < 8 := by
  simp only [State.spriteBit, Bool.and_eq_true, decide_eq_true_eq] at h
  exact h.1

/-- A target taken modulo the screen (R813). -/
def wrapTarget (q : Nat × Nat) : Nat × Nat := (q.1 % fbWidth, q.2 % fbHeight)

theorem wrapTarget_onScreen (q : Nat × Nat) : (wrapTarget q).1 < 64 ∧ (wrapTarget q).2 < 32 :=
  ⟨Nat.mod_lt _ (by decide), Nat.mod_lt _ (by decide)⟩

section
variable (s : State) (x y : Reg) (n : Nat)

theorem State.drawTargets_clip (h : s.params.drawEdge = .clip) :
    s.drawTargets x y n =
      some ((spriteTargets (s.anchorX x) (s.anchorY y) 0 (s.spriteRows n)).filter onScreen) := by
  rw [State.drawTargets, h]
  rfl

theorem State.drawTargets_wrap (h : s.params.drawEdge = .wrap) :
    s.drawTargets x y n =
      some ((spriteTargets (s.anchorX x) (s.anchorY y) 0 (s.spriteRows n)).map wrapTarget) := by
  rw [State.drawTargets, h]
  rfl

theorem State.all_onScreen_iff :
    (spriteTargets (s.anchorX x) (s.anchorY y) 0 (s.spriteRows n)).all onScreen = true ↔
      ∀ c r, s.spriteBit n c r = true → s.anchorX x + c < 64 ∧ s.anchorY y + r < 32 := by
  simp only [List.all_eq_true, onScreen_iff, State.mem_targets]
  constructor
  · exact fun h c r hb => h _ ⟨c, r, hb, rfl⟩
  · rintro h q ⟨c, r, hb, rfl⟩
    exact h c r hb

theorem State.drawTargets_fault (h : s.params.drawEdge = .fault) :
    s.drawTargets x y n =
      if (spriteTargets (s.anchorX x) (s.anchorY y) 0 (s.spriteRows n)).all onScreen then
        some (spriteTargets (s.anchorX x) (s.anchorY y) 0 (s.spriteRows n)) else none := by
  rw [State.drawTargets, h]
  rfl

/-- A sprite is 8 wide and at most 15 high, so wrapping takes no two of its places to one (R813). -/
theorem State.nodup_wrapTarget (hn : n < 16) :
    ((spriteTargets (s.anchorX x) (s.anchorY y) 0 (s.spriteRows n)).map wrapTarget).Nodup := by
  refine List.Nodup.map_on (fun a ha b hb hab => ?_) spriteTargets_nodup
  obtain ⟨c, r, hbit, rfl⟩ := (s.mem_targets _ _ n a).1 ha
  obtain ⟨c', r', hbit', rfl⟩ := (s.mem_targets _ _ n b).1 hb
  have hlt := State.lt_of_spriteBit hbit
  have hlt' := State.lt_of_spriteBit hbit'
  simp only [wrapTarget, fbWidth, fbHeight, Prod.mk.injEq] at hab ⊢
  omega

/-- The wrapped targets on a place of the screen are what `hitsWrapped` says. -/
theorem State.mem_wrapped_iff_hitsWrapped (hn : n < 16) {px py : Nat} (hx : px < 64) (hy : py < 32) :
    (px, py) ∈ (spriteTargets (s.anchorX x) (s.anchorY y) 0 (s.spriteRows n)).map wrapTarget ↔
      s.hitsWrapped x y n px py = true := by
  have hax : s.anchorX x < 64 := Nat.mod_lt _ (by decide)
  have hay : s.anchorY y < 32 := Nat.mod_lt _ (by decide)
  rw [List.mem_map, State.hitsWrapped]
  constructor
  · rintro ⟨q, hq, he⟩
    obtain ⟨c, r, hbit, rfl⟩ := (s.mem_targets _ _ n q).1 hq
    have hlt := State.lt_of_spriteBit hbit
    simp only [wrapTarget, fbWidth, fbHeight, Prod.mk.injEq] at he
    have hc : (px + 64 - s.anchorX x) % 64 = c := by omega
    have hr : (py + 32 - s.anchorY y) % 32 = r := by omega
    rwa [hc, hr]
  · intro hbit
    refine ⟨_, (s.mem_targets _ _ n _).2 ⟨_, _, hbit, rfl⟩, ?_⟩
    simp only [wrapTarget, fbWidth, fbHeight, Prod.mk.injEq]
    omega

/-- Whatever DRAW_EDGE, the targets are distinct places of the screen. -/
theorem State.drawTargets_spec (hn : n < 16) {targets : List (Nat × Nat)} (h : s.drawTargets x y n = some targets) :
    targets.Nodup ∧ ∀ q ∈ targets, q.1 < 64 ∧ q.2 < 32 := by
  rcases hedge : s.params.drawEdge with _ | _ | _
  · rw [s.drawTargets_clip x y n hedge] at h
    cases h
    exact ⟨spriteTargets_nodup.filter _, fun q hq => onScreen_iff.1 (List.of_mem_filter hq)⟩
  · rw [s.drawTargets_wrap x y n hedge] at h
    cases h
    refine ⟨s.nodup_wrapTarget x y n hn, fun q hq => ?_⟩
    obtain ⟨p, -, rfl⟩ := List.mem_map.1 hq
    exact wrapTarget_onScreen p
  · rw [s.drawTargets_fault x y n hedge] at h
    split at h
    · rename_i hall
      cases h
      exact ⟨spriteTargets_nodup, fun q hq => onScreen_iff.1 (List.all_eq_true.1 hall q hq)⟩
    · cases h

end

/-- A draw in range whose targets are the places `hit` draws the bits `hit`, and writes the pixels and VF alone. -/
theorem exec_drw_draws {s : State} {x y : Reg} {n : Fin 16} {targets : List (Nat × Nat)} {hit : Nat → Nat → Bool}
    (h : s.index.toNat + n.val ≤ 4096) (ht : s.drawTargets x y n.val = some targets)
    (hm : ∀ px < 64, ∀ py < 32, (px, py) ∈ targets ↔ hit px py = true) :
    ∃ t, exec (.drw x y n) s = .next t ∧ Drawn hit s t ∧ OnlyChanges [.fb] [vf] s t := by
  obtain ⟨hnodup, hscreen⟩ := s.drawTargets_spec x y n.val n.isLt ht
  exact ⟨_, exec_drw_of_targets h ht, drawn_of_targets s targets hit hnodup hscreen hm, onlyChanges_drawOnto s targets⟩

/-! ### The same draw made again -/

section
variable {hit : Nat → Nat → Bool} {s t u : State}

theorem xor_xFF_eq_xFF {b : Byte} : b ^^^ 0xFF = 0xFF ↔ b = 0x00 := by
  revert b
  decide

/-- A pixel that a draw took from 0x00 to 0xFF is a pixel that it hit. -/
theorem Drawn.hit_and_lit_iff (h : Drawn hit s t) {px py : Nat} (hx : px < 64) (hy : py < 32) :
    hit px py = true ∧ t.pixel px py = 0xFF ↔ s.pixel px py = 0x00 ∧ t.pixel px py = 0xFF := by
  obtain ⟨hpix, -, -⟩ := h
  rw [hpix px hx py hy]
  by_cases hh : hit px py = true
  · rw [if_pos hh, xor_xFF_eq_xFF]
    simp [hh]
  · rw [if_neg hh]
    refine ⟨fun ⟨ht, _⟩ => absurd ht hh, fun ⟨h0, hFF⟩ => ?_⟩
    rw [h0] at hFF
    exact absurd hFF (by decide)

/-- Drawing the same bits again flips back what was flipped, and collides where the first draw lit a pixel. -/
theorem Drawn.twice (h1 : Drawn hit s t) (h2 : Drawn hit t u) :
    (∀ px < 64, ∀ py < 32, u.pixel px py = s.pixel px py) ∧ (u.getV vf = 0 ∨ u.getV vf = 1) ∧
      (u.getV vf = 1 ↔ ∃ px < 64, ∃ py < 32, s.pixel px py = 0x00 ∧ t.pixel px py = 0xFF) := by
  obtain ⟨hpix2, hflag, hcoll⟩ := h2
  refine ⟨fun px hx py hy => ?_, hflag, hcoll.trans ?_⟩
  · obtain ⟨hpix1, -, -⟩ := h1
    rw [hpix2 px hx py hy, hpix1 px hx py hy]
    split <;> simp
  · constructor
    · rintro ⟨px, hx, py, hy, h⟩
      exact ⟨px, hx, py, hy, (h1.hit_and_lit_iff hx hy).1 h⟩
    · rintro ⟨px, hx, py, hy, h⟩
      exact ⟨px, hx, py, hy, (h1.hit_and_lit_iff hx hy).2 h⟩

end

/-- A draw changes nothing its own targets depend on, unless an anchor's register is VF. -/
theorem State.drawTargets_drawOnto (s : State) {x y : Reg} (hx : x ≠ vf) (hy : y ≠ vf) (n : Nat)
    (targets : List (Nat × Nat)) : (s.drawOnto targets).drawTargets x y n = s.drawTargets x y n := by
  simp [State.drawTargets, State.drawOnto, State.anchorX, State.anchorY, State.spriteRows, State.getV_setFlag, hx, hy]

/-! ### The statements -/

/-- Settles O43: the targets under `clip` are the places hit that lie on the screen. -/
theorem drawClipped : Obligations.DrawClipped := by
  refine ⟨decodes_of_op fun opc hop => ?_, fun s x y n hedge h => ?_⟩
  · simp only [decode, hop]
    rfl
  · refine exec_drw_draws h (s.drawTargets_clip x y n.val hedge) fun px hx py hy => ?_
    rw [List.mem_filter, s.mem_targets_iff_hits]
    exact and_iff_left (onScreen_iff.2 ⟨hx, hy⟩)

/-- Settles O44: the targets under `wrap` are the sprite's places modulo the screen. -/
theorem drawWrapped : Obligations.DrawWrapped := fun s x y n hedge h =>
  exec_drw_draws h (s.drawTargets_wrap x y n.val hedge) fun _ hx _ hy =>
    s.mem_wrapped_iff_hitsWrapped x y n.val n.isLt hx hy

/-- Settles O45: under `fault` the targets are all the sprite's places, if all lie on the screen. -/
theorem drawEdgeFault : Obligations.DrawEdgeFault := by
  refine fun s x y n hedge h => ⟨fun ⟨c, r, hbit, hoff⟩ => exec_drw_of_no_targets h ?_, fun hon => ?_⟩
  · rw [s.drawTargets_fault x y n.val hedge, if_neg]
    intro hall
    have hin := (s.all_onScreen_iff x y n.val).1 hall c r hbit
    omega
  · refine exec_drw_draws h ?_ fun px _ py _ => s.mem_targets_iff_hits x y n.val px py
    rw [s.drawTargets_fault x y n.val hedge, if_pos ((s.all_onScreen_iff x y n.val).2 hon)]

/-- Settles O46: the range check comes first. -/
theorem drawRangeFault : Obligations.DrawRangeFault := fun _ _ _ _ => exec_drw_of_gt

/-- Settles O47: the second draw has the first's targets, so it draws the same bits. -/
theorem drawTwiceRestores : Obligations.DrawTwiceRestores := by
  intro s t x y n hx hy h
  obtain ⟨hle, targets, ht, rfl⟩ := targets_of_exec_drw_next h
  have ht' := (s.drawTargets_drawOnto hx hy n.val targets).trans ht
  obtain ⟨hnodup, hscreen⟩ := s.drawTargets_spec x y n.val n.isLt ht
  have hdrawn := fun r : State => drawn_of_targets r targets (fun px py => decide ((px, py) ∈ targets)) hnodup hscreen
    fun _ _ _ _ => decide_eq_true_iff.symm
  exact ⟨_, exec_drw_of_targets hle ht', (hdrawn s).twice (hdrawn _)⟩

end Sys2Proof.Machine
end

section
/-! The cycle and its faults (30_encoding.md R330 to R335, 60_exceptions.md R900 to R910): how a step ends, what its
record says, and which instruction reads memory or the random byte. -/

namespace Sys2Proof.Machine

/-! ### No instruction is refused -/

theorem State.indexLoad_ne_refused (s : State) (i : Instr) (value : Nat) (q : Refusal) :
    s.indexLoad i value ≠ .refused q := by
  unfold State.indexLoad
  split <;> simp

theorem State.indexAdd_ne_refused (s : State) (i : Instr) (b : Byte) (q : Refusal) :
    s.indexAdd i b ≠ .refused q := by
  unfold State.indexAdd
  split <;> simp

theorem exec_ne_refused (i : Instr) (s : State) (q : Refusal) : exec i s ≠ .refused q := by
  intro h
  cases i
  case ret | call | skp | sknp | ldKey =>
    simp only [exec, execRet, execCall, execSkp, execSknp, execLdKey] at h
    split at h <;> cases h
  case ldI | ldFont => exact State.indexLoad_ne_refused _ _ _ _ h
  case addI => exact State.indexAdd_ne_refused _ _ _ _ h
  case ldBcd | store =>
    obtain ⟨-, h⟩ := orFault_eq_refused.1 h
    obtain ⟨-, h⟩ := orFault_eq_refused.1 h
    cases h
  case load =>
    obtain ⟨-, h⟩ := orFault_eq_refused.1 h
    cases h
  case drw x y n =>
    rcases exec_drw_cases x y n s with ⟨-, he⟩ | ⟨-, -, he⟩ | ⟨-, _, -, he⟩ <;> cases he.symm.trans h
  all_goals cases h

/-! ### The two checks and IndexRange -/

section
variable {s : State} {i : Instr} {len : Nat} {pc opc : Word} {value : Nat}

theorem State.checkRange_ne_indexRange : s.checkRange i len ≠ some (.indexRange pc opc value) := by
  rw [State.checkRange_eq]
  split <;> simp

theorem State.checkLowWrite_ne_indexRange : s.checkLowWrite i len ≠ some (.indexRange pc opc value) := by
  unfold State.checkLowWrite
  split <;> simp

/-- The two instructions that load I hand `index.load` a value it admits, and no other check raises IndexRange
(42_index_memory.md
R601). -/
theorem exec_ne_indexRange (i : Instr) (s : State) : exec i s ≠ .fault (.indexRange pc opc value) := by
  intro h
  cases i
  case ldI nnn => cases (exec_ldI s nnn).symm.trans h
  case ldFont x => cases (exec_ldFont s x).symm.trans h
  case addI =>
    simp only [exec, execAddI, State.indexAdd] at h
    split at h <;> cases h
  case ret | call | skp | sknp | ldKey =>
    simp only [exec, execRet, execCall, execSkp, execSknp, execLdKey] at h
    split at h <;> cases h
  case ldBcd | store =>
    rcases orFault_eq_fault.1 h with hf | ⟨-, h⟩
    · exact State.checkRange_ne_indexRange hf
    · rcases orFault_eq_fault.1 h with hf | ⟨-, h⟩
      · exact State.checkLowWrite_ne_indexRange hf
      · cases h
  case load =>
    rcases orFault_eq_fault.1 h with hf | ⟨-, h⟩
    · exact State.checkRange_ne_indexRange hf
    · cases h
  case drw x y n =>
    rcases exec_drw_cases x y n s with ⟨-, he⟩ | ⟨-, -, he⟩ | ⟨-, _, -, he⟩ <;> cases he.symm.trans h
  all_goals cases h

end

/-! ### A running state whose fetch or decode fails -/

section
variable {s : State} (hs : s.status = .running)
include hs

theorem step_of_fetch_out (h : 4096 ≤ s.pc.toNat + 1) : step s = .fault (.fetchRange s.pc) := by
  simp only [step, hs, State.fetch_of_ge h, raise_eq]

theorem step_of_illegal (hp : s.pc.toNat + 1 < 4096) (hd : decode s.opcodeAt = none) :
    step s = .fault (.illegalOpcode s.pc s.opcodeAt) := by
  simp only [step, hs, State.fetch_of_lt hp, hd, raise_eq]

end

/-! ### The record of a fault -/

/-- An instruction that faults is no shift, so its record's opcode is the one fetched (log entry 6). -/
theorem recordOpc_of_exec_fault {s : State} {i : Instr} {f : Fault} (hr : s.Runs i) (h : exec i s.advance = .fault f) :
    f.recordPc = s.pc ∧ f.recordOpc = some s.opcodeAt := by
  obtain ⟨hpc, hopc, hshr, hshl⟩ := exec_fault_record h
  obtain ⟨-, -, hd⟩ := hr
  refine ⟨hpc.trans s.advance_pc_sub, ?_⟩
  rcases encode_of_decode hd with henc | ⟨x, hx | hx⟩
  · rw [hopc, henc]
  · exact absurd hx (hshr x)
  · exact absurd hx (hshl x)

/-! ### The statements -/

/-- Settles O7: the branches of a step in a running state. -/
theorem stepRunsDecodedInstruction : Obligations.StepRunsDecodedInstruction := by
  refine fun s hs => ⟨step_of_fetch_out hs, step_of_illegal hs, fun i hr => ⟨fun t ht => ?_, fun f hf => ?_, ?_⟩⟩
  · exact step_of_exec hr ht
  · rw [step_of_runs hr]
    exact endOfStep_eq_fault.2 hf
  · exact exec_ne_refused i s.advance

/-- Settles O9: by where the step faulted: at the fetch, at the decode, or in the instruction. -/
theorem faultRecordNamesInstruction : Obligations.FaultRecordNamesInstruction := by
  intro s f h
  rcases step_eq_fault h with ⟨hp, rfl⟩ | ⟨hp, -, rfl⟩ | ⟨i, hr, hf⟩
  · exact ⟨rfl, fun hlt => absurd hp (by omega), fun _ => ⟨rfl, rfl⟩⟩
  · exact ⟨rfl, fun _ => rfl, fun hge => absurd hp (by omega)⟩
  · obtain ⟨hpc, hopc⟩ := recordOpc_of_exec_fault hr hf
    obtain ⟨-, hp, -⟩ := hr
    exact ⟨hpc, fun _ => hopc, fun hge => absurd hp (by omega)⟩

/-- Settles O37: a step's own two faults are others, and an instruction's is never IndexRange. -/
theorem indexRangeUnreachable : Obligations.IndexRangeUnreachable := by
  refine ⟨fun i s pc opc value => exec_ne_indexRange i s, fun s pc opc value h => ?_⟩
  rcases step_eq_fault h with ⟨-, hf⟩ | ⟨-, -, hf⟩ | ⟨i, -, hf⟩
  · cases hf
  · cases hf
  · exact exec_ne_indexRange i s.advance hf

/-- Settles O55: the instruction writes none of these, and the step's end writes the phase. -/
theorem hostStateKeptByStep : Obligations.HostStateKeptByStep := by
  intro s t h
  obtain ⟨i, u, ⟨hs, -, -⟩, hu, rfl⟩ := step_eq_next h
  obtain ⟨hkey, hparams, hstatus, -, -, -⟩ := exec_keeps hu
  exact ⟨hkey, hparams, hstatus.trans hs, rfl⟩

/-- Settles O53: memory is one of the elements `exec_unwritten` and `exec_unread` speak of. -/
theorem memoryWritersAndReaders : Obligations.MemoryWritersAndReaders := by
  refine ⟨fun i s t h _ _ => ?_, fun i s mem _ _ => ?_⟩
  · have hw : .mem ∉ elementsWritten i := by cases i <;> simp_all [elementsWritten]
    exact (congrArg State.mem (exec_unwritten h hw)).symm
  · have hr : .mem ∉ elementsRead i := by cases i <;> simp_all [elementsRead]
    exact exec_unread hr s { s with mem := mem } State.reset

/-- Settles O54: the random byte is the element that Cxkk alone reads. -/
theorem randomReadOnlyByRnd : Obligations.RandomReadOnlyByRnd := by
  intro i s r d _
  have hr : .rand ∉ elementsRead i := by cases i <;> simp_all [elementsRead]
  exact exec_unread hr s { s with randIn := r, draws := d } State.reset

end Sys2Proof.Machine
end

section
/-! What every step and every transaction keeps: the machine's invariant, and low memory under LOW_WRITE = `fault`
(10_state.md R113, R126; 20_memory.md R231; 60_exceptions.md R940 to R946). -/

namespace Sys2Proof.Machine

/-! ### What an instruction can do to memory, the frame buffer and the stack -/

section
variable {i : Instr} {s t : State} (h : exec i s = .next t)
include h

/-- An instruction leaves memory, or writes one run of bytes at I that both checks have passed. -/
theorem exec_mem_cases : t.mem = s.mem ∨ ∃ bytes : List Byte, s.index.toNat + bytes.length ≤ 4096 ∧
    (0x200 ≤ s.index.toNat ∨ s.params.lowWrite = .write) ∧ t.mem = (s.memWriteAll s.index.toNat bytes).mem := by
  cases i
  case ldBcd x =>
    obtain ⟨hrange, hlow, rfl⟩ := exec_ldBcd_next h
    exact .inr ⟨bcdDigits (s.getV x), hrange, hlow, rfl⟩
  case store x =>
    obtain ⟨hrange, hlow, rfl⟩ := exec_store_next h
    exact .inr ⟨_, by rwa [State.regsUpTo_length], hlow, rfl⟩
  all_goals exact .inl (congrArg State.mem (exec_unwritten (e := .mem) h (by simp [elementsWritten]))).symm

/-- An instruction leaves the frame buffer, clears it, or flips pixels of the screen. -/
theorem exec_fb_cases : t.fb = s.fb ∨ t.fb = FrameBuffer.clear ∨ ∃ targets : List (Nat × Nat),
    (∀ q ∈ targets, q.1 < 64 ∧ q.2 < 32) ∧ t.fb = (flipPixels s.fb targets).1 := by
  cases i
  case cls =>
    cases h
    exact .inr (.inl rfl)
  case drw x y n =>
    obtain ⟨-, targets, ht, rfl⟩ := targets_of_exec_drw_next h
    obtain ⟨-, hscreen⟩ := s.drawTargets_spec x y n.val n.isLt ht
    exact .inr (.inr ⟨targets, hscreen, rfl⟩)
  all_goals exact .inl (congrArg State.fb (exec_unwritten (e := .fb) h (by simp [elementsWritten]))).symm

/-- An instruction leaves the stack slots, or writes its pc to the one at sp. -/
theorem exec_stack_cases : t.stack = s.stack ∨ ∃ hlt : s.sp.val < 16, t.stack = s.stack.set s.sp.val s.pc hlt := by
  cases i
  case call nnn =>
    obtain ⟨hlt, rfl⟩ := exec_call_next h
    exact .inr ⟨hlt, rfl⟩
  all_goals exact .inl (congrArg State.stack (exec_unwritten (e := .stack) h (by simp [elementsWritten]))).symm

/-! ### Each part of the invariant -/

theorem exec_keeps_mem_wf (hm : Memory.wf s.params.font s.mem = true) : Memory.wf t.params.font t.mem = true := by
  obtain ⟨-, hparams, -⟩ := exec_keeps h
  rcases exec_mem_cases h with he | ⟨bytes, hlen, -, he⟩
  · rwa [hparams, he]
  · have hw := Memory.wf_memWriteAll bytes s s.index.toNat hlen hm
    rwa [State.memWriteAll_params, ← hparams, ← he] at hw

theorem exec_keeps_fb_wf (hf : FrameBuffer.wf s.fb = true) : FrameBuffer.wf t.fb = true := by
  rcases exec_fb_cases h with he | he | ⟨targets, hscreen, he⟩
  · rwa [he]
  · rw [he]
    rfl
  · rw [he]
    refine FrameBuffer.wf_flipPixels targets (fun q hq => ?_) s.fb false hf
    have hq := hscreen q hq
    simp only [pixelIndex, fbWidth]
    omega

theorem exec_keeps_stack_le {b : Nat} (hpc : s.pc.toNat ≤ b) (hs : ∀ j : Fin 16, (s.stack[j.val]).toNat ≤ b) :
    ∀ j : Fin 16, (t.stack[j.val]).toNat ≤ b := by
  intro j
  rcases exec_stack_cases h with he | ⟨hlt, he⟩
  · simpa only [he] using hs j
  · simp only [he, Vector.getElem_set]
    split
    · exact hpc
    · exact hs j

/-- Under LOW_WRITE = `fault` an instruction writes no byte below 0x200 (20_memory.md R231). -/
theorem exec_memRead_low (hw : s.params.lowWrite = .fault) {a : Nat} (ha : a < 0x200) : t.memRead a = s.memRead a := by
  obtain ⟨-, hparams, -⟩ := exec_keeps h
  rcases exec_mem_cases h with he | ⟨bytes, -, hlow, he⟩
  · simp only [State.memRead, hparams, he]
  · have hbase : 0x200 ≤ s.index.toNat := hlow.resolve_right (by simp [hw])
    have hout := State.memRead_memWriteAll_outside bytes s s.index.toNat a (.inl (by omega))
    rwa [State.memRead, State.memWriteAll_params, ← hparams, ← he] at hout

end

/-- The table of R111 leads no further than 0x10FE: V0 plus nnn is the largest, and a popped address is at most
0x1000. -/
theorem State.PcAfter.le {s : State} {i : Instr} {p : Nat} (h : s.PcAfter i p) (hp : s.pc.toNat + 1 < 4096)
    (hs : ∀ j : Fin 16, (s.stack[j.val]).toNat ≤ 0x1000) : p ≤ 0x10FE := by
  cases i
  case jp nnn | call nnn =>
    have hn := nnn.isLt
    have he : p = nnn.toNat := h
    omega
  case ret =>
    have he : p = (s.stack[s.sp.val - 1]).toNat := h
    have hslot := hs ⟨s.sp.val - 1, by omega⟩
    exact he ▸ hslot.trans (by decide)
  case jpV0 nnn =>
    have hb := (s.getV 0).isLt
    have hn := nnn.isLt
    have he : p = (s.getV 0).toNat + nnn.toNat := h
    omega
  case seByte | sneByte | seReg | sneReg =>
    simp only [State.PcAfter] at h
    split at h <;> omega
  case skp x | sknp x =>
    obtain ⟨hdown, hup⟩ := h
    by_cases hk : s.namedKeyDown x
    · have he := hdown hk
      omega
    · have he := hup hk
      omega
  case ldKey x =>
    obtain ⟨hdown, hup⟩ := h
    by_cases hk : ∃ k, s.keyDown k = true
    · have he := hdown hk
      omega
    · have he := hup (by simpa using hk)
      omega
  all_goals
    have he : p = s.pc.toNat + 2 := h
    omega

/-! ### What a transaction can do -/

/-- A completed step leaves its next state (60_exceptions.md R944). -/
theorem transact_step_of_next {s t : State} {rand : Byte} (h : step { s with randIn := some rand } = .next t) :
    transact s (.step rand) = (t, .ok) := by
  simp only [transact, State.stepWith, h]

/-- A step transaction leaves the next state, or the state as it was but for the status. -/
theorem transact_step_cases (s : State) (rand : Byte) :
    (∃ t, step { s with randIn := some rand } = .next t ∧ (transact s (.step rand)).1 = t) ∨
    (∃ f, (transact s (.step rand)).1 = s.enterFaulted f) ∨ (transact s (.step rand)).1 = s := by
  rcases h : step { s with randIn := some rand } with t | f | q
  · exact .inl ⟨t, rfl, congrArg Prod.fst (transact_step_of_next h)⟩
  · exact .inr (.inl ⟨f, congrArg Prod.fst (transact_step_of_fault h)⟩)
  · refine .inr (.inr ?_)
    simp only [transact, State.stepWith, h]

/-- A ROM load leaves the state, or the ROM at 0x200 on, inside memory (70_reset_and_hazards.md R1010 to R1012). -/
theorem transact_loadRom_cases (s : State) (rom : List Byte) :
    (transact s (.loadRom rom)).1 = s ∨
    (rom.length ≤ 3584 ∧ (transact s (.loadRom rom)).1 = { s.memWriteAll 0x200 rom with phase := .loaded }) := by
  by_cases hp : s.phase = .fresh
  · by_cases hlen : 1 ≤ rom.length ∧ rom.length ≤ 3584
    · exact .inr ⟨hlen.2, congrArg Prod.fst (transact_loadRom_of_length hp hlen.1 hlen.2)⟩
    · exact .inl (congrArg Prod.fst (transact_loadRom_of_length_out hp (by omega)))
  · left
    simp only [transact, State.loadRomWith, State.loadRom, if_neg hp]

/-- What every transaction of a run keeps holds after the run. -/
theorem transactAll_keeps {P : State → Prop} {txs : List Transaction}
    (hkeep : ∀ tx ∈ txs, ∀ s, P s → P (transact s tx).1) {s : State} (hs : P s) : P (transactAll s txs) := by
  induction txs generalizing s with
  | nil => exact hs
  | cons tx rest ih =>
    exact ih (fun tx' htx => hkeep tx' (List.mem_cons_of_mem _ htx)) (hkeep tx (List.mem_cons_self ..) s hs)

/-! ### The invariant along a run -/

theorem inv_construct (p : Params) : (State.construct p).Inv := by
  refine ⟨rfl, rfl, (by decide : (0x200 : Word).toNat ≤ 0x10FE), fun j => ?_⟩
  have hslot : (State.construct p).stack[j.val] = 0 := Vector.getElem_replicate j.isLt
  rw [hslot]
  decide

/-- Settles O56: each part of the invariant is kept by the instruction, and the pc's bound is read off the table of
R111. -/
theorem invariantKeptByStep : Obligations.InvariantKeptByStep := by
  intro s t ⟨hmem, hfb, _, hstack⟩ h
  obtain ⟨i, u, hr, hu, rfl⟩ := step_eq_next h
  have hafter := programCounterAfterEachInstruction s _ i hr h
  obtain ⟨-, hp, -⟩ := hr
  have hadv : s.advance.pc.toNat ≤ 0x1000 := by
    rw [State.toNat_advance_pc hp]
    omega
  have hmem' := exec_keeps_mem_wf (s := s.advance) hu hmem
  have hfb' := exec_keeps_fb_wf (s := s.advance) hu hfb
  have hstack' := exec_keeps_stack_le (s := s.advance) hu hadv hstack
  exact ⟨hmem', hfb', hafter.le hp hstack, hstack'⟩

/-- Every transaction keeps the invariant: a ROM ends inside memory, and what the others write it does not speak of. -/
theorem transact_keeps_inv (tx : Transaction) (s : State) (hs : s.Inv) : (transact s tx).1.Inv := by
  cases tx with
  | construct p => exact inv_construct p
  | loadRom rom =>
    rcases transact_loadRom_cases s rom with he | ⟨hlen, he⟩
    · rwa [he]
    · obtain ⟨hmem, hfb, hpc, hstack⟩ := hs
      rw [he]
      refine ⟨Memory.wf_memWriteAll rom s 0x200 (by simp only [memSize]; omega) hmem, ?_, ?_, ?_⟩
      · rwa [State.memWriteAll_fb]
      · rwa [State.memWriteAll_pc]
      · simpa only [State.memWriteAll_stack] using hstack
  | setKey k down => exact hs
  | step rand =>
    rcases transact_step_cases s rand with ⟨t, ht, he⟩ | ⟨f, he⟩ | he
    · have hs' : { s with randIn := some rand }.Inv := hs
      rw [he]
      exact invariantKeptByStep _ t hs' ht
    · rw [he]
      exact hs
    · rwa [he]
  | inspect => exact hs

/-! ### Low memory along a run -/

/-- The state has the construction parameters `p` and reads below 0x200 as it was constructed. -/
def State.LowAsConstructed (p : Params) (s : State) : Prop :=
  s.params = p ∧ ∀ a < 0x200, s.memRead a = (State.construct p).memRead a

theorem step_keeps_low {p : Params} (hp : p.lowWrite = .fault) {s t : State} (hs : s.LowAsConstructed p)
    (h : step s = .next t) : t.LowAsConstructed p := by
  obtain ⟨hparams, hread⟩ := hs
  obtain ⟨i, u, -, hu, rfl⟩ := step_eq_next h
  obtain ⟨-, hkept, -⟩ := exec_keeps hu
  refine ⟨hkept.trans hparams, fun a ha => ?_⟩
  exact (exec_memRead_low (s := s.advance) hu (by rw [State.advance_params, hparams, hp]) ha).trans (hread a ha)

/-- No transaction but construct changes a parameter or, under LOW_WRITE = `fault`, a byte below 0x200. -/
theorem transact_keeps_low {p : Params} (hp : p.lowWrite = .fault) {tx : Transaction} (hc : ∀ q, .construct q ≠ tx)
    (s : State) (hs : s.LowAsConstructed p) : (transact s tx).1.LowAsConstructed p := by
  cases tx with
  | construct q => exact absurd rfl (hc q)
  | loadRom rom =>
    rcases transact_loadRom_cases s rom with he | ⟨-, he⟩
    · rwa [he]
    · obtain ⟨hparams, hread⟩ := hs
      rw [he]
      refine ⟨(State.memWriteAll_params rom s 0x200).trans hparams, fun a ha => ?_⟩
      exact (State.memRead_memWriteAll_outside rom s 0x200 a (.inl ha)).trans (hread a ha)
  | setKey k down => exact hs
  | step rand =>
    rcases transact_step_cases s rand with ⟨t, ht, he⟩ | ⟨f, he⟩ | he
    · have hs' : { s with randIn := some rand }.LowAsConstructed p := hs
      rw [he]
      exact step_keeps_low hp hs' ht
    · rw [he]
      exact hs
    · rwa [he]
  | inspect => exact hs

/-! ### The statements -/

/-- Settles O1: construction fills every field with the constant named. -/
theorem constructionState : Obligations.ConstructionState := by
  refine ⟨fun p => ⟨fun r => ?_, rfl, rfl, fun j => ?_, rfl, rfl, rfl, fun k => ?_, fun _ _ _ _ => rfl, rfl, rfl, rfl⟩,
    rfl, rfl, rfl⟩
  · exact Vector.getElem_replicate r.isLt
  · exact Vector.getElem_replicate j.isLt
  · exact Vector.getElem_replicate k.isLt

/-- Settles O4: a load asks for phase fresh first, and set_key writes one place of the key vector. -/
theorem lateRomLoadAndKeyInput : Obligations.LateRomLoadAndKeyInput := by
  refine ⟨fun s rom hp => ?_, fun s k down => ⟨_, rfl, fun j => ?_, rfl⟩⟩
  · have hne : s.phase ≠ .fresh := by rcases hp with hp | hp <;> simp [hp]
    simp only [transact, State.loadRomWith, State.loadRom, if_neg hne]
  · simp only [State.keyDown, State.setKey_key, Vector.getElem_set, Fin.ext_iff, eq_comm]

/-- Settles O6: the two answers of a step transaction that is admitted. -/
theorem stepTransaction : Obligations.StepTransaction :=
  fun _ _ => ⟨fun _ => transact_step_of_fault, fun _ => transact_step_of_next⟩

/-- Settles O57: nothing is listed, pc is 0x200 and every slot 0. -/
theorem invariantAtConstruction : Obligations.InvariantAtConstruction :=
  ⟨inv_construct, inv_construct Config.defaultParams⟩

/-- Settles O58: the invariant holds at construction, and every transaction keeps it. -/
theorem reachableStatesMeetInvariant : Obligations.ReachableStatesMeetInvariant := fun p _ =>
  transactAll_keeps (fun tx _ => transact_keeps_inv tx) (inv_construct p)

/-- Settles O59: low memory as constructed is kept by every transaction of a run that constructs nothing. -/
theorem lowMemoryNeverChanges : Obligations.LowMemoryNeverChanges := by
  intro p txs hp hc
  obtain ⟨-, hread⟩ : (transactAll (State.construct p) txs).LowAsConstructed p :=
    transactAll_keeps (fun tx htx => transact_keeps_low hp fun q he => hc q (he ▸ htx)) ⟨rfl, fun _ _ => rfl⟩
  exact hread

end Sys2Proof.Machine
end

section
/-! The shifts and the random byte (41_alu.md), and which registers an instruction writes (10_state.md R102, R103). -/

namespace Sys2Proof.Machine

/-! ### The bit a shift moves out, by value -/

theorem toNat_flagByte_lowBit (b : Byte) : (flagByte (lowBit b)).toNat = b.toNat % 2 := by
  rw [lowBit, BitVec.getLsbD, Nat.testBit_zero]
  rcases Nat.mod_two_eq_zero_or_one b.toNat with h | h <;> simp [h, flagByte]

theorem toNat_flagByte_highBit (b : Byte) : (flagByte (highBit b)).toNat = b.toNat / 128 := by
  have hb := b.isLt
  rw [highBit, BitVec.getLsbD, Nat.testBit_eq_decide_div_mod_eq]
  have hdiv : b.toNat / 128 = 0 ∨ b.toNat / 128 = 1 := by omega
  rcases hdiv with h | h <;> simp [h, flagByte]

theorem flagByte_shr_one (flag : Bool) : flagByte flag >>> 1 = 0 := by
  cases flag <;> rfl

theorem toNat_flagByte_shl_one (flag : Bool) : (flagByte flag <<< 1).toNat = 2 * (flagByte flag).toNat := by
  cases flag <;> rfl

/-! ### The flag written, and a register after it -/

section
variable (s : State)

theorem onlyChanges_setFlag_setV (x : Reg) (b : Byte) (flag : Bool) :
    OnlyChanges [] [x, vf] s ((s.setFlag flag).setV x b) := by
  simp +contextual [OnlyChanges, State.getV_setV, State.getV_setFlag]

/-- A register other than VF written after the flag leaves the flag (R571). -/
theorem State.getV_vf_setFlag_setV {x : Reg} (hx : x ≠ vf) (b : Byte) (flag : Bool) :
    ((s.setFlag flag).setV x b).getV vf = flagByte flag := by
  rw [State.getV_setV_ne _ _ hx.symm, State.getV_setFlag, if_pos rfl]

theorem State.getV_setFlag_ne {x : Reg} (hx : x ≠ vf) (flag : Bool) : (s.setFlag flag).getV x = s.getV x := by
  rw [State.getV_setFlag, if_neg hx]

theorem State.getV_vf_setFlag (flag : Bool) : (s.setFlag flag).getV vf = flagByte flag := by
  rw [State.getV_setFlag, if_pos rfl]

end

/-! ### Which registers an instruction writes -/

section
variable {i : Instr} {s t : State} (h : exec i s = .next t)
include h

/-- A register an instruction does not name, and does not write as its flag, keeps its value (R102, R103). -/
theorem exec_getV_of_not_written {r : Reg} (hr : r ∉ destinations i) (hf : writesFlag i = false ∨ r ≠ vf) :
    t.getV r = s.getV r := by
  cases i
  case ldByte | addByte | ldReg | orReg | andReg | xorReg | rnd | ldFromDt =>
    cases h
    exact s.getV_setV_ne _ (by simpa [destinations] using hr)
  case addReg | sub | subn =>
    have hvf : r ≠ vf := by simpa [writesFlag] using hf
    cases h
    exact (State.getV_setFlag_ne _ hvf _).trans (s.getV_setV_ne _ (by simpa [destinations] using hr))
  case shr | shl =>
    have hvf : r ≠ vf := by simpa [writesFlag] using hf
    cases h
    exact (State.getV_setV_ne _ _ (by simpa [destinations] using hr)).trans (s.getV_setFlag_ne hvf _)
  case drw =>
    have hvf : r ≠ vf := by simpa [writesFlag] using hf
    obtain ⟨-, fb, flag, rfl⟩ := exec_drw_next h
    exact State.getV_setFlag_ne (s.setFb fb) hvf flag
  case load x =>
    obtain ⟨-, h⟩ := orFault_eq_next.1 h
    cases h
    rw [State.getV_loadRegs, if_neg (by simpa [destinations] using hr)]
  case ldKey x =>
    simp only [exec, execLdKey] at h
    split at h <;> cases h
    · rfl
    · exact s.getV_setV_ne _ (by simpa [destinations] using hr)
  case seByte | sneByte | seReg | sneReg =>
    cases h
    exact s.skipIf_getV _ r
  case skp =>
    obtain ⟨k, -, rfl⟩ := exec_skp_next h
    exact s.skipIf_getV _ r
  case sknp =>
    obtain ⟨k, -, rfl⟩ := exec_sknp_next h
    exact s.skipIf_getV _ r
  case ret =>
    obtain ⟨-, rfl⟩ := exec_ret_next h
    rfl
  case call =>
    obtain ⟨-, rfl⟩ := exec_call_next h
    rfl
  case ldI | ldFont | addI =>
    simp only [exec, execLdI, execLdFont, execAddI, State.indexLoad, State.indexAdd] at h
    split at h <;> cases h
    rfl
  case ldBcd =>
    obtain ⟨-, -, rfl⟩ := exec_ldBcd_next h
    exact State.memWriteAll_getV _ s _ r
  case store =>
    obtain ⟨-, -, rfl⟩ := exec_store_next h
    exact State.memWriteAll_getV _ s _ r
  case cls | jp | jpV0 | ldDt | ldSt =>
    cases h
    rfl

/-- The instructions that write VF as a side effect leave a flag in it; 8xyF6 shifts its flag out again (R571). -/
theorem exec_getV_vf_of_writesFlag (hf : writesFlag i = true) (hi : i ≠ .shl vf) : t.getV vf = 0 ∨ t.getV vf = 1 := by
  cases i
  case addReg | sub | subn =>
    cases h
    rw [State.getV_vf_setFlag]
    exact flagByte_cases _
  case drw =>
    obtain ⟨-, fb, flag, rfl⟩ := exec_drw_next h
    rw [State.getV_vf_setFlag]
    exact flagByte_cases _
  case shr x =>
    cases h
    by_cases hx : x = vf
    · subst hx
      rw [State.getV_setV_self, State.getV_vf_setFlag, flagByte_shr_one]
      exact .inl rfl
    · rw [State.getV_vf_setFlag_setV s hx]
      exact flagByte_cases _
  case shl x =>
    cases h
    have hx : x ≠ vf := fun he => hi (he ▸ rfl)
    rw [State.getV_vf_setFlag_setV s hx]
    exact flagByte_cases _
  all_goals cases hf

end

/-! ### The statements -/

/-- Settles O21: the flag goes to VF first and Vx is read again after it, which tells for x = 15 alone. -/
theorem shiftsReadInOrder : Obligations.ShiftsReadInOrder := by
  refine ⟨decodes_of_op_n fun opc hop hn => ?_, decodes_of_op_n fun opc hop hn => ?_, fun s x => ⟨?_, ?_⟩⟩
  · simp only [decode, hop, hn]
    rfl
  · simp only [decode, hop, hn]
    rfl
  · refine ⟨_, rfl, fun hx => ⟨?_, ?_⟩, fun hx => ?_, onlyChanges_setFlag_setV s x _ _⟩
    · rw [State.getV_vf_setFlag_setV s hx, toNat_flagByte_lowBit]
    · rw [State.getV_setV_self, State.getV_setFlag_ne s hx, BitVec.toNat_ushiftRight, Nat.shiftRight_eq_div_pow]
    · rw [hx, State.getV_setV_self, State.getV_vf_setFlag, flagByte_shr_one]
  · refine ⟨_, rfl, fun hx => ⟨?_, ?_⟩, fun hx => ?_, onlyChanges_setFlag_setV s x _ _⟩
    · rw [State.getV_vf_setFlag_setV s hx, toNat_flagByte_highBit]
    · rw [State.getV_setV_self, State.getV_setFlag_ne s hx, BitVec.toNat_shiftLeft, Nat.shiftLeft_eq, Nat.mul_comm]
    · rw [hx, State.getV_setV_self, State.getV_vf_setFlag, toNat_flagByte_shl_one, toNat_flagByte_highBit]

/-- Settles O22: the byte of the step is masked with kk, and is the host's where the host has said one. -/
theorem randomAndMask : Obligations.RandomAndMask := by
  refine ⟨decodes_of_op fun opc hop => ?_, fun s x kk => ⟨s.setV x (s.rand &&& kk), rfl, fun r hr => ?_, ⟨s.rand, ?_⟩, ?_,
    onlyChanges_setV s x _⟩⟩
  · simp only [decode, hop]
    rfl
  · rw [State.getV_setV_self, State.rand, hr]
  · exact s.getV_setV_self x _
  · rw [State.getV_setV_self, BitVec.and_assoc]
    simp

/-- Settles O48: what a completed instruction leaves in a register it does not name, and in VF as its flag. -/
theorem registerWriters : Obligations.RegisterWriters := fun _ _ _ h =>
  ⟨fun _ => exec_getV_of_not_written h, exec_getV_vf_of_writesFlag h⟩

end Sys2Proof.Machine
end
